-- ==== Sys2Proof/Word.lean ====
section
/-! DEFINITION. The word types of CORE (spec/00_scope.md R5, R6): one byte, a register index, an interrupt line, a
timestamp. -/

namespace Sys2Proof

/-- A general register, a memory cell, FL, an operand byte, an address: 8 unsigned bits (R5 XLEN, R6). -/
abbrev Byte := BitVec 8

/-- The index of a general register, 0 to 7 (R5 NREG, R10). -/
abbrev RegIdx := Fin 8

/-- The number of an interrupt line, 0 to 7 (R5 NLINES, R177). -/
abbrev Line := Fin 8

/-- A timestamp, in nanoseconds counted from reset (R5 leaves the type open; DESIGN CHOICE, log 2). -/
abbrev Time := Int

end Sys2Proof
end

