-- ==== Sys2Proof/Config.lean ====
section
/-! DEFINITION. What is fixed for the machine (spec/00_scope.md R5) and the one free value: what the environment answers in
a cycle whose reading the state does not fix. -/

namespace Sys2Proof

/-- What the environment supplies in one cycle, `env = (now, key)` (R8): the clock reading, and the key taken from the
keyboard source if one was available. -/
structure EnvInput where
  now : Time
  key : Option Byte
  deriving DecidableEq, Repr, Inhabited

namespace Config

/-- Register 5 is the interrupt mask IM (R5, R11). -/
abbrev imReg : RegIdx := 5
/-- Register 6 is the interrupt status IS (R5, R11). -/
abbrev isReg : RegIdx := 6
/-- Register 7 is the stack pointer SP (R5, R11). -/
abbrev spReg : RegIdx := 7

/-- `SP_INIT` (R5, R22): the spec adopts the LS-8 family's 0xF4 (PRESUMED, log 6). -/
def spInit : Byte := 0xF4#8

/-- `REG_INIT` (R5, R22), the reset value of registers 0 to 6 and of FL (the spec's D6, log 6). -/
def regInit : Byte := 0x00#8

/-- What a cell holds that nothing has written (R22 `MEM_INIT` beyond the image, the spec's D7, log 7). -/
def memFill : Byte := 0x00#8

/-- `KEYBUF`, the key-buffer address (R5, R36). -/
def keyBuf : Byte := 0xF4#8

/-- `VEC_BASE`, the first cell of the interrupt vector table (R5, R36). -/
def vecBase : Byte := 0xF8#8

/-- `TIMER_LINE` (R5, R177). -/
abbrev timerLine : Line := 0
/-- `KEY_LINE` (R5, R177). -/
abbrev keyLine : Line := 1

/-- `TIMER_PERIOD`, one second (R5, R179), in the unit of `Time` (log 2). -/
def timerPeriod : Time := 1000000000

/-- FREE VALUE (R8, R210, spec/93 U8 and U9: any value per cycle): the environment's reading in cycle `n` where the state
fixes none. It has no body, so nothing can be proved of it (log 1). -/
opaque input : Nat → EnvInput

end Config

end Sys2Proof
end

