-- ==== Sys2Proof/Machine/State.lean ====
section
/-! DEFINITION. The state of CORE (spec/10_state.md R10 to R22), the reasons a step can end without a next state, and the
state after reset (R22, spec/70_reset_and_hazards.md R200). -/

namespace Sys2Proof.Machine

/-- The sub-causes of BoundsError (spec/60_exceptions.md R174). -/
inductive BoundsKind where
  /-- an operand byte lies above 0xFF (R73) -/
  | fetch
  /-- a register operand byte is above 7 (R74) -/
  | regindex
  /-- the next pc or a CALL return address would be above 0xFF (R76, R110) -/
  | pcoverflow
  deriving DecidableEq, Repr

/-- Why the machine stopped, with the recorded info of R170. -/
inductive Cause where
  /-- HLT (R93) -/
  | halt
  /-- DecodeError: the byte is not an opcode (R171) -/
  | decode (op : Byte)
  /-- ALUError, unsupported operation: listed, raised by nothing (R172, log 15) -/
  | aluop
  /-- ALUError, division by zero (R173) -/
  | divzero
  /-- BoundsError (R174) -/
  | bounds (sub : BoundsKind)
  deriving DecidableEq, Repr

/-- The run status `run` (R17): `Running` or `Stopped(status, cause)`, the status being the exit code 0 or 1. -/
inductive RunStatus where
  | running
  | stopped (status : Fin 2) (cause : Cause)
  deriving DecidableEq, Repr

/-- The three kinds of event of the output stream (R18). -/
inductive Event where
  /-- from PRN (R91) -/
  | dec (v : Byte)
  /-- from PRA (R92) -/
  | chr (v : Byte)
  /-- from a fatal condition (R175) -/
  | report (cause : Cause)
  deriving DecidableEq, Repr

/-- Memory (spec/20_memory.md R30): the cells that do not hold `Config.memFill`, by address. -/
abbrev Memory := List Host.Cell

/-- The canonical form: addresses strictly rising, all of them 0 to 255 (R30), no entry equal to what an unlisted address
reads as. Equal memories are then equal lists. -/
def Memory.wf (m : Memory) : Bool :=
  decide (m.Pairwise fun c d => c.1 < d.1) && m.all fun c => decide (c.1 < 256) && (c.2 != Config.memFill)

/-- The whole state of the machine (R20, R22). The last two fields are the model's own (log 1). -/
structure State where
  /-- `x[0]` to `x[7]`; `x[5]` = IM, `x[6]` = IS, `x[7]` = SP (R10, R11) -/
  regs : Vector Byte 8
  /-- the program counter (R13) -/
  pc : Byte
  /-- the flags register: bit 0 E, bit 1 G, bit 2 L (R14) -/
  fl : Byte
  /-- interrupt enable (R15) -/
  ie : Bool
  /-- last timer fire (R16) -/
  ltf : Time
  /-- the run status (R17) -/
  run : RunStatus
  /-- the output stream, oldest event first (R18) -/
  out : List Event
  /-- the 256 memory cells (R30) -/
  mem : Memory
  /-- MODEL'S OWN: the environment's readings of the coming cycles, next first (R8, log 1) -/
  inputs : List EnvInput
  /-- MODEL'S OWN: how many cycles have been run; it only selects the free reading of a cycle (log 1, log 23) -/
  cycle : Nat
  deriving DecidableEq, Repr

/-- Why a step has no next state: never. Every fatal condition of the spec has an effect that the spec gives (R175), so it
is a next state whose `run` is `stopped`, and an address outside 0 to 255 cannot be formed (R31). The type is empty, which is
safe: no claim can rest on a fault (log 5). -/
inductive Fault where
  deriving DecidableEq, Repr

/-- Why no meaning is given. -/
inductive Refusal where
  /-- Raised by an arm of `exec` whose instruction has no meaning yet; no arm is left so. Safe: nothing is claimed of it. -/
  | notModelled (mnemonic : String)
  /-- Raised by `boot` for an image of more than 256 bytes, to which the spec gives no meaning (R201, D20). Safe: nothing is
  claimed of such a run (log 17). -/
  | imageTooLong (bytes : Nat)
  deriving DecidableEq, Repr

/-- The machine right after reset, no image loaded (R22, R200): registers and FL by log 6, LTF by log 2, memory by log 7, the
model's own two fields by log 1 and log 23 (DESIGN CHOICE). -/
def State.reset : State where
  regs := #v[Config.regInit, Config.regInit, Config.regInit, Config.regInit, Config.regInit, Config.regInit,
    Config.regInit, Config.spInit]
  pc := 0x00#8
  fl := Config.regInit
  ie := true
  ltf := 0
  run := .running
  out := []
  mem := []
  inputs := []
  cycle := 0

end Sys2Proof.Machine
end

