-- ==== Sys2Proof/Machine/Ops.lean ====
section
/-! DEFINITION. The named operations over memory, registers, stack, output and run status (spec/00_scope.md R7), and the two
ways control leaves the straight line: a fatal condition (spec/60_exceptions.md R175) and interrupt entry (R183), with the
return from it (spec/46_iret.md R160). -/

namespace Sys2Proof.Machine

/-! ### Memory (spec/20_memory.md R30, R31) -/

/-- `MemRead(addr, 1)` (R31). -/
def memRead : Memory → Byte → Byte
  | [], _ => Config.memFill
  | c :: m, a => if c.1 = a.toNat then c.2 else memRead m a

/-- Puts a cell in its place by address. -/
def insertCell (c : Host.Cell) : Memory → Memory
  | [] => [c]
  | d :: m => if c.1 < d.1 then c :: d :: m else d :: insertCell c m

/-- `MemWrite(addr, 1, v)` (R31), keeping the canonical form: an entry equal to the fill is not listed. -/
def memWrite (m : Memory) (a v : Byte) : Memory :=
  let rest := m.filter fun c => c.1 != a.toNat
  if v = Config.memFill then rest else insertCell (a.toNat, v) rest

/-- `MemRead` of the state's memory. -/
def State.readByte (s : State) (a : Byte) : Byte := memRead s.mem a

/-- `MemWrite` of the state's memory. No address is protected (R37). -/
def State.writeByte (s : State) (a v : Byte) : State := { s with mem := memWrite s.mem a v }

/-- Stores bytes at rising addresses. -/
def State.writeBytes (s : State) (a : Byte) : List Byte → State
  | [] => s
  | v :: vs => (s.writeByte a v).writeBytes (a + 1) vs

/-! ### Registers (spec/10_state.md R10 to R16) -/

/-- `x[i]`. -/
def State.reg (s : State) (i : RegIdx) : Byte := s.regs[i]

/-- `x[i] <- v`; the value is a byte already, which is the mask of R12. -/
def State.setReg (s : State) (i : RegIdx) (v : Byte) : State := { s with regs := s.regs.set i v }

/-- `pc <- target` (R13). -/
def State.setPc (s : State) (target : Byte) : State := { s with pc := target }

/-- `FL <- v`, all 8 bits (R14). -/
def State.setFl (s : State) (v : Byte) : State := { s with fl := v }

/-- `IE <- b` (R15). -/
def State.setIe (s : State) (b : Bool) : State := { s with ie := b }

/-- `LTF <- now` (R16). -/
def State.setLtf (s : State) (now : Time) : State := { s with ltf := now }

/-- `v[i] <- b`: one bit of a byte, the others kept. -/
def putBit (v : Byte) (i : Fin 8) (b : Bool) : Byte :=
  if b then v ||| (1#8 <<< i.val) else v &&& ~~~(1#8 <<< i.val)

/-- `IS[i] <- b`: one bit of `x[6]` (R7). -/
def State.putIs (s : State) (i : Line) (b : Bool) : State :=
  s.setReg Config.isReg (putBit (s.reg Config.isReg) i b)

/-! ### The stack manager (spec/42_stack.md) -/

/-- `Push(v)`: SP down by one modulo 256, then the byte at the new SP (R100, R104). -/
def State.push (s : State) (v : Byte) : State :=
  let sp := s.reg Config.spReg - 1
  (s.setReg Config.spReg sp).writeByte sp v

/-- The state after `Pop()`: SP up by one modulo 256, the cell not cleared (R101, R104). -/
def State.dropTop (s : State) : State := s.setReg Config.spReg (s.reg Config.spReg + 1)

/-- The byte `Pop()` returns: the cell at SP before the increment (R101). -/
def State.top (s : State) : Byte := s.readByte (s.reg Config.spReg)

/-- `Pop()` (R101). -/
def State.pop (s : State) : Byte × State := (s.top, s.dropTop)

/-! ### Output and the end of a run -/

/-- `Emit(e)` (R18): the stream is append-only. -/
def State.emit (s : State) (e : Event) : State := { s with out := s.out ++ [e] }

/-- The latch `run` (R17). -/
def State.stop (s : State) (status : Fin 2) (c : Cause) : State := { s with run := .stopped status c }

/-- `halt(0)`: nothing else changes, pc stays at the HLT (R93, the spec's D18, log 20). -/
def State.halt (s : State) : State := s.stop 0 .halt

/-- `raise C(info)`, taking a fatal condition (R175): the report, then `run <- Stopped(1, C)`, and nothing else. -/
def State.raise (s : State) (c : Cause) : State := (s.emit (.report c)).stop 1 c

/-! ### PC advance (spec/40_execution_cycle.md R75, R76) -/

/-- `pc <- pc + n`; pc does not wrap, so above 0xFF the machine stops and keeps pc (R76, the spec's D1, log 9). -/
def State.advance (s : State) (n : Nat) : State :=
  if s.pc.toNat + n ≤ 0xFF then s.setPc (s.pc + BitVec.ofNat 8 n) else s.raise (.bounds .pcoverflow)

/-! ### Interrupt entry and return -/

/-- Pushes the bytes in order, the first one first. -/
def State.pushAll (s : State) (vs : List Byte) : State := vs.foldl State.push s

/-- The registers that interrupt entry saves, in the order it pushes them (R183). `x[7]` is not among them. -/
def savedRegs : List RegIdx := [0, 1, 2, 3, 4, 5, 6]

/-- The nine bytes that interrupt entry pushes, in order: pc, FL, `x[0]` to `x[6]` (R183; spec/90_conflicts.md C1). -/
def State.frame (s : State) : List Byte := s.pc :: s.fl :: savedRegs.map s.reg

/-- The address of line i's vector, `0xF8 + i` (R177, R184). -/
def vectorAddr (i : Line) : Byte := Config.vecBase + BitVec.ofNat 8 i.val

/-- Interrupt entry of line `i` (R183): the pending bit is cleared first, so the saved IS has it cleared; IE is cleared; the
frame is pushed; then the vector is read, from memory as the pushes left it. -/
def State.enterInterrupt (s : State) (i : Line) : State :=
  let s1 := (s.putIs i false).setIe false
  let s2 := s1.pushAll s1.frame
  s2.setPc (s2.readByte (vectorAddr i))

/-- `x[i] <- Pop()`: the register is written after SP has moved (R101, R103). -/
def State.popReg (s : State) (i : RegIdx) : State := s.dropTop.setReg i s.top

/-- `FL <- Pop()`, all 8 bits (R160, the spec's D10, log 12). -/
def State.popFl (s : State) : State := s.dropTop.setFl s.top

/-- `pc <- Pop()` (R111, R160). -/
def State.popPc (s : State) : State := s.dropTop.setPc s.top

/-- Return from interrupt (R160): registers 6 down to 0, then FL, then pc; then IE is set. -/
def State.returnFromInterrupt (s : State) : State :=
  ((savedRegs.reverse.foldl State.popReg s).popFl.popPc).setIe true

end Sys2Proof.Machine
end

