-- ==== Sys2Proof/Machine/Operands.lean ====
section
/-! DEFINITION. The operand forms (spec/30_encoding.md R52 to R54): a register operand byte is checked, never masked, and a
value above 7 stops the machine before the instruction has any effect (spec/40_execution_cycle.md R74; the spec's D2, D16,
log 10). The immediate needs no operation: it is the byte. -/

namespace Sys2Proof.Machine

/-- What a meaning answers. -/
abbrev Result := Host.Outcome State Fault Refusal

/-- The register a register operand byte names; `none` above 7 (R53). -/
def regOperand (b : Byte) : Option RegIdx :=
  if h : b.toNat < 8 then some ⟨b.toNat, h⟩ else none

/-- Format R and the register of format RI: `opnd1` is checked, then the rule runs (R74). -/
def withReg (a : Byte) (s : State) (k : RegIdx → State) : Result :=
  match regOperand a with
  | some ra => .next (k ra)
  | none => .next (s.raise (.bounds .regindex))

/-- Format RR: `opnd1` is checked, then `opnd2`, then the rule runs (R74). -/
def withRegs (a b : Byte) (s : State) (k : RegIdx → RegIdx → State) : Result :=
  match regOperand a, regOperand b with
  | some ra, some rb => .next (k ra rb)
  | none, _ => .next (s.raise (.bounds .regindex))
  | some _, none => .next (s.raise (.bounds .regindex))

end Sys2Proof.Machine
end

