-- ==== Sys2Proof/Machine/Boot.lean ====
section
/-! DEFINITION. The loader contract (spec/70_reset_and_hazards.md R200, R201): construction, then the image copied to memory
from address 0. -/

namespace Sys2Proof.Machine

/-- The machine right after reset with `image` loaded (R201). An image of more than 256 bytes has no meaning and is refused
(the spec's D20, log 17). -/
def boot (image : List Byte) : Result :=
  if image.length ≤ 256 then .next (State.reset.writeBytes 0 image)
  else .refused (.imageTooLong image.length)

end Sys2Proof.Machine
end

