-- ==== Sys2Proof/Machine/Flags.lean ====
section
/-! DEFINITION. The flags (spec/10_state.md R14): E is bit 0, G bit 1, L bit 2. Only CMP computes them (R130, R142); the
conditional jumps read E (R113, R114). -/

namespace Sys2Proof.Machine

/-- E = `FL[0]` (R14). -/
def flagE (fl : Byte) : Bool := fl.getLsbD 0

/-- G = `FL[1]` (R14). -/
def flagG (fl : Byte) : Bool := fl.getLsbD 1

/-- L = `FL[2]` (R14). -/
def flagL (fl : Byte) : Bool := fl.getLsbD 2

/-- FL after `CMP` of `a` and `b`, unsigned: L, G and E set or cleared, bits 7:3 kept (R142; the spec's D10, log 12). -/
def cmpFlags (fl a b : Byte) : Byte :=
  putBit (putBit (putBit fl 2 (decide (a.toNat < b.toNat))) 1 (decide (a.toNat > b.toNat))) 0 (decide (a = b))

end Sys2Proof.Machine
end

