-- ==== Sys2Proof/Machine/Alu.lean ====
section
/-! DEFINITION. The ALU and its twelve instructions (spec/45_alu.md). Both operands are read before the result is written,
results are 8 bits, and only CMP touches FL (R130, R143). -/

namespace Sys2Proof.Machine

/-- `a + b`, 8 bits (R131). -/
def aluAdd (a b : Byte) : Byte := a + b
/-- the low 8 bits of the product (R132). -/
def aluMul (a b : Byte) : Byte := a * b
/-- bitwise AND (R133). -/
def aluAnd (a b : Byte) : Byte := a &&& b
/-- bitwise OR (R134). -/
def aluOr (a b : Byte) : Byte := a ||| b
/-- bitwise XOR (R135). -/
def aluXor (a b : Byte) : Byte := a ^^^ b
/-- all 8 bits inverted (R136). -/
def aluNot (a : Byte) : Byte := ~~~a
/-- shift left by the whole value of `b`, not reduced; 0 from 8 up (R137; the spec's D11, log 13). -/
def aluShl (a b : Byte) : Byte := a <<< b.toNat
/-- logical shift right by the whole value of `b`; 0 from 8 up (R138; D11, log 13). -/
def aluShr (a b : Byte) : Byte := a >>> b.toNat
/-- the unsigned remainder; used only for `b ≠ 0` (R139). -/
def aluMod (a b : Byte) : Byte := a % b
/-- plus one, 8 bits (R140). -/
def aluInc (a : Byte) : Byte := a + 1
/-- minus one, 8 bits (R141). -/
def aluDec (a : Byte) : Byte := a - 1

/-- `apply(operation, regA, regB)` for a binary operation (R130): `x[ra] <- f x[ra] x[rb]`, then `pc + 3`. -/
def aluBinary (f : Byte → Byte → Byte) (ra rb : Byte) (s : State) : Result :=
  withRegs ra rb s fun a b => (s.setReg a (f (s.reg a) (s.reg b))).advance 3

/-- `apply` for a unary operation (R130): `x[ra] <- f x[ra]`, then `pc + 2`; no second byte is read. -/
def aluUnary (f : Byte → Byte) (ra : Byte) (s : State) : Result :=
  withReg ra s fun a => (s.setReg a (f (s.reg a))).advance 2

/-- ADD (R131). -/
def execAdd (ra rb : Byte) (s : State) : Result := aluBinary aluAdd ra rb s
/-- MUL (R132). -/
def execMul (ra rb : Byte) (s : State) : Result := aluBinary aluMul ra rb s
/-- AND (R133). -/
def execAnd (ra rb : Byte) (s : State) : Result := aluBinary aluAnd ra rb s
/-- OR (R134). -/
def execOr (ra rb : Byte) (s : State) : Result := aluBinary aluOr ra rb s
/-- XOR (R135). -/
def execXor (ra rb : Byte) (s : State) : Result := aluBinary aluXor ra rb s
/-- NOT (R136). -/
def execNot (ra : Byte) (s : State) : Result := aluUnary aluNot ra s
/-- SHL (R137). -/
def execShl (ra rb : Byte) (s : State) : Result := aluBinary aluShl ra rb s
/-- SHR (R138). -/
def execShr (ra rb : Byte) (s : State) : Result := aluBinary aluShr ra rb s

/-- MOD (R139): a zero divisor stops the machine before any effect (R173). -/
def execMod (ra rb : Byte) (s : State) : Result :=
  withRegs ra rb s fun a b =>
    if s.reg b = 0 then s.raise .divzero
    else (s.setReg a (aluMod (s.reg a) (s.reg b))).advance 3

/-- INC (R140). -/
def execInc (ra : Byte) (s : State) : Result := aluUnary aluInc ra s
/-- DEC (R141). -/
def execDec (ra : Byte) (s : State) : Result := aluUnary aluDec ra s

/-- CMP (R142): no register is written. -/
def execCmp (ra rb : Byte) (s : State) : Result :=
  withRegs ra rb s fun a b => (s.setFl (cmpFlags s.fl (s.reg a) (s.reg b))).advance 3

end Sys2Proof.Machine
end

