-- ==== Sys2Proof/Machine/Control.lean ====
section
/-! DEFINITION. CALL, RET, JMP, JEQ, JNE (spec/43_control_transfer.md). All five determine pc themselves. -/

namespace Sys2Proof.Machine

/-- CALL (R110): the return address is checked before any effect (the spec's D1, log 9); the target is read after the push,
so `CALL R7` jumps to the decremented SP (D13, log 11). -/
def execCall (ra : Byte) (s : State) : Result :=
  withReg ra s fun a =>
    if s.pc.toNat + 2 ≤ 0xFF then
      let s1 := s.push (s.pc + 2)
      s1.setPc (s1.reg a)
    else s.raise (.bounds .pcoverflow)

/-- RET (R111). -/
def execRet (s : State) : Result := .next s.popPc

/-- JMP (R112). -/
def execJmp (ra : Byte) (s : State) : Result :=
  withReg ra s fun a => s.setPc (s.reg a)

/-- The conditional jump: taken to `x[a]`, else past the two bytes (R113, R114, R76). -/
def State.jumpIf (s : State) (taken : Bool) (a : RegIdx) : State :=
  if taken then s.setPc (s.reg a) else s.advance 2

/-- JEQ (R113). -/
def execJeq (ra : Byte) (s : State) : Result :=
  withReg ra s fun a => s.jumpIf (flagE s.fl) a

/-- JNE (R114). -/
def execJne (ra : Byte) (s : State) : Result :=
  withReg ra s fun a => s.jumpIf (!flagE s.fl) a

end Sys2Proof.Machine
end

