-- ==== Sys2Proof/Machine/Iret.lean ====
section
/-! DEFINITION. IRET (spec/46_iret.md R160). -/

namespace Sys2Proof.Machine

/-- IRET: it does not check that an interrupt is being serviced, and no advance follows (R160; the spec's D9, log 20). -/
def execIret (s : State) : Result := .next s.returnFromInterrupt

end Sys2Proof.Machine
end

