-- ==== Sys2Proof/Machine/LdiOutputHalt.lean ====
section
/-! DEFINITION. LDI, PRN, PRA, HLT (spec/41_ldi_output_halt.md). -/

namespace Sys2Proof.Machine

/-- LDI (R90). Every value of the immediate is legal. -/
def execLdi (ra imm : Byte) (s : State) : Result :=
  withReg ra s fun a => (s.setReg a imm).advance 3

/-- PRN (R91). -/
def execPrn (ra : Byte) (s : State) : Result :=
  withReg ra s fun a => (s.emit (.dec (s.reg a))).advance 2

/-- PRA (R92). -/
def execPra (ra : Byte) (s : State) : Result :=
  withReg ra s fun a => (s.emit (.chr (s.reg a))).advance 2

/-- HLT (R93). -/
def execHlt (s : State) : Result := .next s.halt

end Sys2Proof.Machine
end

