-- ==== Sys2Proof/Machine/LoadStore.lean ====
section
/-! DEFINITION. LD and ST (spec/44_load_store.md): register indirect, one byte. -/

namespace Sys2Proof.Machine

/-- LD (R120): the address is read before the destination is written. -/
def execLd (ra rb : Byte) (s : State) : Result :=
  withRegs ra rb s fun a b => (s.setReg a (s.readByte (s.reg b))).advance 3

/-- ST (R121): the first operand holds the address, the second the value. -/
def execSt (ra rb : Byte) (s : State) : Result :=
  withRegs ra rb s fun a b => (s.writeByte (s.reg a) (s.reg b)).advance 3

end Sys2Proof.Machine
end

