-- ==== Sys2Proof/Machine/Stack.lean ====
section
/-! DEFINITION. PUSH and POP (spec/42_stack.md). -/

namespace Sys2Proof.Machine

/-- PUSH (R102): the register is read before SP changes, so `PUSH R7` stores the old SP (the spec's D12, log 11). -/
def execPush (ra : Byte) (s : State) : Result :=
  withReg ra s fun a => (s.push (s.reg a)).advance 2

/-- POP (R103): the register is written after SP moved, so `POP R7` ends with SP the popped byte (D12, log 11). -/
def execPop (ra : Byte) (s : State) : Result :=
  withReg ra s fun a => (s.popReg a).advance 2

end Sys2Proof.Machine
end

