-- ==== Sys2Proof/Syntax.lean ====
section
/-! DEFINITION. The instructions of CORE: one constructor per row of spec/opcode_table.json (spec/30_encoding.md R55). An
operand is the operand BYTE as it stands in memory: a register operand byte may be any of 0 to 255, and a value above 7 is
no other instruction but a run-time stop (R53, R56, R74). -/

namespace Sys2Proof

/-- The closed list of 26 instructions (R55). `ra`, `rb` are register operand bytes, `imm` an immediate (R52, R54). -/
inductive Instr where
  /-- R90, format RI -/
  | ldi (ra imm : Byte)
  /-- R91, format R -/
  | prn (ra : Byte)
  /-- R92, format R -/
  | pra (ra : Byte)
  /-- R93, format Z -/
  | hlt
  /-- R102, format R -/
  | push (ra : Byte)
  /-- R103, format R -/
  | pop (ra : Byte)
  /-- R110, format R -/
  | call (ra : Byte)
  /-- R111, format Z -/
  | ret
  /-- R112, format R -/
  | jmp (ra : Byte)
  /-- R113, format R -/
  | jeq (ra : Byte)
  /-- R114, format R -/
  | jne (ra : Byte)
  /-- R120, format RR -/
  | ld (ra rb : Byte)
  /-- R121, format RR: `ra` holds the address, `rb` the value -/
  | st (ra rb : Byte)
  /-- R131, format RR -/
  | add (ra rb : Byte)
  /-- R132, format RR -/
  | mul (ra rb : Byte)
  /-- R133, format RR -/
  | and (ra rb : Byte)
  /-- R134, format RR -/
  | or (ra rb : Byte)
  /-- R135, format RR -/
  | xor (ra rb : Byte)
  /-- R136, format R -/
  | not (ra : Byte)
  /-- R137, format RR -/
  | shl (ra rb : Byte)
  /-- R138, format RR -/
  | shr (ra rb : Byte)
  /-- R139, format RR -/
  | mod (ra rb : Byte)
  /-- R140, format R -/
  | inc (ra : Byte)
  /-- R141, format R -/
  | dec (ra : Byte)
  /-- R142, format RR -/
  | cmp (ra rb : Byte)
  /-- R160, format Z -/
  | iret
  deriving DecidableEq, Repr

end Sys2Proof
end

