-- ==== Sys2Proof/WellFormed.lean ====
section
/-! DEFINITION. Which instructions are well formed: every operand byte that the format uses as a register index is 0 to 7
(spec/30_encoding.md R52, R53; spec/40_execution_cycle.md R74). The immediate of LDI is never checked (R54). -/

namespace Sys2Proof

/-- "Register access is by index 0–7 only" (R53). -/
def isRegByte (b : Byte) : Bool := decide (b.toNat < 8)

/-- The register operand bytes of an instruction, in the order they are checked (R74). -/
def Instr.regBytes : Instr → List Byte
  | .hlt | .ret | .iret => []
  | .ldi ra _ => [ra]
  | .prn ra | .pra ra | .push ra | .pop ra | .call ra | .jmp ra | .jeq ra | .jne ra => [ra]
  | .not ra | .inc ra | .dec ra => [ra]
  | .ld ra rb | .st ra rb | .add ra rb | .mul ra rb | .and ra rb | .or ra rb | .xor ra rb => [ra, rb]
  | .shl ra rb | .shr ra rb | .mod ra rb | .cmp ra rb => [ra, rb]

/-- Well formed: every register operand byte is a register index (R74). -/
def Instr.wf (i : Instr) : Bool := i.regBytes.all isRegByte

end Sys2Proof
end

