-- ==== Sys2Proof/Decode.lean ====
section
/-! DEFINITION. The encoding (spec/30_encoding.md): the fields of an opcode byte (R50, R51), the opcode map (R55), the
decoder, total on any bytes and refusing by name (R56, R57), and the encoder. The 26 byte values are those of R55, which
the spec takes from the LS-8 family (its D4; PRESUMED, log 8). -/

namespace Sys2Proof

/-- `NOPND`, bits 7:6 of an opcode byte: the number of operand bytes (R51). -/
def nopnd (op : Byte) : Nat := op.toNat / 64

/-- `SETSPC`, bit 4 of an opcode byte: the instruction alone determines the next pc (R51). -/
def setsPc (op : Byte) : Bool := op.getLsbD 4

/-- The opcode byte of an instruction (R55). -/
def Instr.opcode : Instr → Byte
  | .ldi _ _ => 0x82#8
  | .prn _ => 0x47#8
  | .pra _ => 0x48#8
  | .hlt => 0x01#8
  | .push _ => 0x45#8
  | .pop _ => 0x46#8
  | .call _ => 0x50#8
  | .ret => 0x11#8
  | .jmp _ => 0x54#8
  | .jeq _ => 0x55#8
  | .jne _ => 0x56#8
  | .ld _ _ => 0x83#8
  | .st _ _ => 0x84#8
  | .add _ _ => 0xA0#8
  | .mul _ _ => 0xA2#8
  | .and _ _ => 0xA8#8
  | .or _ _ => 0xAA#8
  | .xor _ _ => 0xAB#8
  | .not _ => 0x69#8
  | .shl _ _ => 0xAC#8
  | .shr _ _ => 0xAD#8
  | .mod _ _ => 0xA4#8
  | .inc _ => 0x65#8
  | .dec _ => 0x66#8
  | .cmp _ _ => 0xA7#8
  | .iret => 0x13#8

/-- The instruction with its operand bytes still missing (R52: formats Z, R, and RR or RI). -/
inductive OpShape where
  | z (i : Instr)
  | r (f : Byte → Instr)
  | rr (f : Byte → Byte → Instr)

/-- The dispatch table keyed by the whole opcode byte (R55, R56). -/
def opcodeTable : List (Byte × OpShape) :=
  [(0x82#8, .rr .ldi), (0x47#8, .r .prn), (0x48#8, .r .pra), (0x01#8, .z .hlt),
   (0x45#8, .r .push), (0x46#8, .r .pop),
   (0x50#8, .r .call), (0x11#8, .z .ret), (0x54#8, .r .jmp), (0x55#8, .r .jeq), (0x56#8, .r .jne),
   (0x83#8, .rr .ld), (0x84#8, .rr .st)] ++
  [(0xA0#8, .rr .add), (0xA2#8, .rr .mul), (0xA8#8, .rr .and), (0xAA#8, .rr .or), (0xAB#8, .rr .xor),
   (0x69#8, .r .not), (0xAC#8, .rr .shl), (0xAD#8, .rr .shr), (0xA4#8, .rr .mod), (0x65#8, .r .inc),
   (0x66#8, .r .dec), (0xA7#8, .rr .cmp), (0x13#8, .z .iret)]

/-- Looks the whole byte up; `none` for the 230 illegal bytes (R56, R57). -/
def lookupOpcode (op : Byte) : Option OpShape := opcodeTable.lookup op

/-- Why bytes are not an instruction. -/
inductive DecodeFail where
  /-- No byte was given. The step always has the opcode byte (R71), so it never meets this. -/
  | noOpcode
  /-- The opcode byte is not in the table (R56, R171). -/
  | unknownOpcode (op : Byte)
  /-- The bytes end before the operand bytes the opcode asks for (R73). -/
  | operandMissing (op : Byte)
  deriving DecidableEq, Repr

/-- Decodes the instruction at the head of `bs` and returns it with the bytes after it (R50, R56, R58). The opcode is
recognised before any operand byte is looked at (R57, R72). -/
def decode (bs : List Byte) : Except DecodeFail (Instr × List Byte) :=
  match bs with
  | [] => .error .noOpcode
  | op :: rest =>
    match lookupOpcode op, rest with
    | none, _ => .error (.unknownOpcode op)
    | some (.z i), rest => .ok (i, rest)
    | some (.r f), a :: rest => .ok (f a, rest)
    | some (.rr f), a :: b :: rest => .ok (f a b, rest)
    | some _, _ => .error (.operandMissing op)

/-- The operand bytes of an instruction, the first at the lower address (R33, R52). -/
def Instr.operandBytes : Instr → List Byte
  | .hlt | .ret | .iret => []
  | .ldi ra imm => [ra, imm]
  | .prn ra | .pra ra | .push ra | .pop ra | .call ra | .jmp ra | .jeq ra | .jne ra => [ra]
  | .not ra | .inc ra | .dec ra => [ra]
  | .ld ra rb | .st ra rb | .add ra rb | .mul ra rb | .and ra rb | .or ra rb | .xor ra rb => [ra, rb]
  | .shl ra rb | .shr ra rb | .mod ra rb | .cmp ra rb => [ra, rb]

/-- The bytes of an instruction, the opcode byte first (R50, R59). -/
def encode (i : Instr) : List Byte := i.opcode :: i.operandBytes

/-- The three bytes of a table word: byte k is bits 8k+7..8k, and every bit from `nbits` up is 0. -/
def tableBytes (nbits w : Nat) : List Byte :=
  let v := w % 2 ^ nbits
  [BitVec.ofNat 8 v, BitVec.ofNat 8 (v / 256), BitVec.ofNat 8 (v / 65536)]

/-- The instruction the decoder reads from a table word laid out in memory (R33). -/
def decodeTableWord (nbits w : Nat) : Option Instr :=
  match decode (tableBytes nbits w) with
  | .ok (i, _) => some i
  | .error _ => none

end Sys2Proof
end

