-- ==== Sys2Proof/Machine/Interrupts.lean ====
section
/-! DEFINITION. The interrupt controller's poll, steps 1 to 3 of a cycle (spec/60_exceptions.md R177 to R185): timer,
keyboard, accept. -/

namespace Sys2Proof.Machine

/-- The environment's reading for the coming cycle: the one the state fixes, else the free value (R8, R80, log 1). -/
def State.nextInput (s : State) : EnvInput :=
  match s.inputs with
  | e :: _ => e
  | [] => Config.input s.cycle

/-- The cycle's one consultation of the environment is used up (R80). Only the model's own fields change. -/
def State.consumeInput (s : State) : State := { s with inputs := s.inputs.tail, cycle := s.cycle + 1 }

/-- Strictly more than one second since the last fire (R179). A clock that runs backwards never makes it due (U20, log 3). -/
def timerDue (now ltf : Time) : Bool := decide (now - ltf > Config.timerPeriod)

/-- `TimerPoll(now)` (R179): masked or not, servicing or not. -/
def State.timerPoll (s : State) (now : Time) : State :=
  if timerDue now s.ltf then (s.putIs Config.timerLine true).setLtf now else s

/-- `KeyboardPoll(key)` (R180): an ordinary write of the key buffer, then IS bit 1. -/
def State.keyboardPoll (s : State) (key : Option Byte) : State :=
  match key with
  | none => s
  | some k => (s.writeByte Config.keyBuf k).putIs Config.keyLine true

/-- `IM & IS` (R181). -/
def State.maskedPending (s : State) : Byte := s.reg Config.imReg &&& s.reg Config.isReg

/-- The lowest-numbered set bit (R182); `none` if there is none. -/
def lowestLine (m : Byte) : Option Line := (List.finRange 8).find? fun i => m.getLsbD i.val

/-- Which line is accepted, if any: IE and a masked pending bit, the lowest first (R181, R182). -/
def State.acceptedLine (s : State) : Option Line := if s.ie then lowestLine s.maskedPending else none

/-- `InterruptAccept()` (R181 to R183): at most one line a cycle. -/
def State.interruptAccept (s : State) : State :=
  match s.acceptedLine with
  | some i => s.enterInterrupt i
  | none => s

/-- Steps 1 and 2: the two sources latch their bits (R179, R180). -/
def State.latchRequests (s : State) : State :=
  (s.consumeInput.timerPoll s.nextInput.now).keyboardPoll s.nextInput.key

/-- Steps 1 to 3 of the cycle, every cycle, before fetch (spec/40_execution_cycle.md R70). -/
def State.poll (s : State) : State := s.latchRequests.interruptAccept

end Sys2Proof.Machine
end

