-- ==== Sys2Proof/Machine/Fetch.lean ====
section
/-! DEFINITION. Fetching an instruction's bytes (spec/40_execution_cycle.md R71, R73), and placing an instruction where the
next cycle fetches it. -/

namespace Sys2Proof.Machine

/-- The bytes at pc, pc + 1 and pc + 2 that exist: fetch does not wrap at 0xFF (R34, R73). The decoder looks at no more of
them than the instruction has; a read has no side effect (R35), so reading the window at once shows nowhere (DEDUCED,
log 14). -/
def State.fetchWindow (s : State) : List Byte :=
  ((List.range 3).filter fun k => s.pc.toNat + k ≤ 0xFF).map fun k => s.readByte (s.pc + BitVec.ofNat 8 k)

/-- `s` made ready to fetch at its pc in the very next cycle (log 18): it is running; three bytes from pc exist; the reading
of the next cycle is one with no key and no timer tick; and a request that would be accepted is held off. What already holds
is left as it is. -/
def State.readyToFetch (s : State) : State :=
  { s with
    run := .running
    pc := if s.pc.toNat + 2 ≤ 0xFF then s.pc else 0
    inputs := { now := s.ltf, key := none } :: s.inputs.tail
    ie := if s.acceptedLine = none then s.ie else false }

/-- A table word's three bytes stored where the next cycle fetches. -/
def State.placeTableWord (s : State) (nbits w : Nat) : State :=
  let r := s.readyToFetch
  r.writeBytes r.pc (tableBytes nbits w)

end Sys2Proof.Machine
end

