-- ==== Sys2Proof/Machine/Cycle.lean ====
section
/-! DEFINITION. One cycle of the machine (spec/40_execution_cycle.md R70): poll, fetch, decode, execute. -/

namespace Sys2Proof.Machine

/-- Steps 4 to 9 of the cycle (R71 to R76, R79): a byte that is no opcode raises DecodeError before any operand is looked at,
an operand byte beyond 0xFF raises BoundsError(fetch), and otherwise the instruction runs. -/
def fetchAndExec (s : State) : Result :=
  match decode s.fetchWindow with
  | .ok (i, _) => exec i s
  | .error (.unknownOpcode op) => .next (s.raise (.decode op))
  | .error (.operandMissing _) => .next (s.raise (.bounds .fetch))
  | .error .noOpcode => .next (s.raise (.bounds .fetch))

/-- One cycle. A stopped machine runs no cycle and changes nothing (R17, R78; DEDUCED, log 4). The first handler instruction
runs in the cycle of the interrupt entry (R70; the spec's D22, log 22). -/
def runCycle (s : State) : Result :=
  match s.run with
  | .stopped _ _ => .next s
  | .running => fetchAndExec s.poll

end Sys2Proof.Machine
end

