-- ==== Sys2Proof/Machine/Output.lean ====
section
/-! DEFINITION. What the outside sees: the numeric cause codes and the exit status (spec/60_exceptions.md R170) and the
characters of an output event (spec/41_ldi_output_halt.md R91, R92). No rule reads any of it back (spec/10_state.md R18). -/

namespace Sys2Proof.Machine

/-- The numeric code of a cause (R170; the spec's D14, log 19). -/
def causeCode : Cause → Nat
  | .halt => 0
  | .decode _ => 1
  | .aluop => 2
  | .divzero => 3
  | .bounds _ => 4

/-- The exit status of a cause: 0 for HLT, 1 for every fatal condition (R170, R175). -/
def causeStatus : Cause → Fin 2
  | .halt => 0
  | _ => 1

/-- The process exit status: none while running (R17). -/
def exitStatus : RunStatus → Option (Fin 2)
  | .running => none
  | .stopped status _ => some status

/-- The decimal digits of a byte, no leading zeros, most significant first (R91). -/
def decDigits (v : Byte) : List Nat :=
  if v.toNat < 10 then [v.toNat]
  else if v.toNat < 100 then [v.toNat / 10, v.toNat % 10]
  else [v.toNat / 100, v.toNat / 10 % 10, v.toNat % 10]

/-- The characters of an event (R91, R92; the spec's D15, log 16): digits and one line feed, or one character of that code
point. The wording of a report is not the hardware's (R175), so a report has no characters here. -/
def renderEvent : Event → Option (List Char)
  | .dec v => some ((decDigits v).map (fun d => Char.ofNat (48 + d)) ++ [Char.ofNat 10])
  | .chr v => some [Char.ofNat v.toNat]
  | .report _ => none

end Sys2Proof.Machine
end

