-- ==== Sys2Proof/Machine/Step.lean ====
section
/-! DEFINITION. The step of the machine: one cycle (spec/40_execution_cycle.md R70). -/

namespace Sys2Proof.Machine

/-- One cycle of CORE. -/
def step (s : State) : Host.Outcome State Fault Refusal := runCycle s

/-- `s` with a table word stored where `step` fetches its next instruction, and made ready to fetch it (log 18). -/
def State.withFetchWord (s : State) (nbits w : Nat) : State := s.placeTableWord nbits w

end Sys2Proof.Machine
end

