-- ==== Sys2Proof/Safety.lean ====
section
/-! DEFINITION. The terms the claims use: the invariant of the machine, what an instruction leaves unchanged, and what a
fatal condition does. -/

namespace Sys2Proof.Machine

/-- The operand byte that names register `r` (spec R53): the legal register operand bytes are exactly these eight. -/
def regByte (r : RegIdx) : Byte := BitVec.ofNat 8 r.val

/-- A report of a fatal condition. -/
def isReport : Event → Bool
  | .report _ => true
  | _ => false

/-- No event of the list is a report. -/
def noReport (es : List Event) : Bool := es.all fun e => !isReport e

/-- Run status and output agree (spec R17, R170, R175). While running nothing has been reported. A stop has the status of its
cause, and its cause is not the unsupported ALU operation (R172). After HLT nothing has been reported. After a fatal condition
the report of its cause is the last event and the only report. -/
def StopsReported (s : State) : Prop :=
  match s.run with
  | .running => noReport s.out = true
  | .stopped status cause =>
    status = causeStatus cause ∧ cause ≠ .aluop ∧
      (cause = .halt → noReport s.out = true) ∧
      (cause ≠ .halt → ∃ before, s.out = before ++ [.report cause] ∧ noReport before = true)

/-- The invariant: memory is in its canonical form within 0 to 255, and stops are reported as the spec says. -/
structure Inv (s : State) : Prop where
  mem_wf : Memory.wf s.mem = true
  stops_reported : StopsReported s

/-- From `s` to `t` nothing has changed but the registers `rs`, the memory cells `cells`, pc, FL and the output stream. -/
structure Frame (rs : List RegIdx) (cells : List Byte) (s t : State) : Prop where
  regs : ∀ r, r ∉ rs → t.reg r = s.reg r
  mem : ∀ a, a ∉ cells → t.readByte a = s.readByte a
  ie : t.ie = s.ie
  ltf : t.ltf = s.ltf
  run : t.run = s.run
  inputs : t.inputs = s.inputs
  cycle : t.cycle = s.cycle

/-- A fatal condition and nothing else (spec R175): the report is appended, the machine is stopped with status 1. -/
def Raised (c : Cause) (s t : State) : Prop :=
  t = { s with out := s.out ++ [.report c], run := .stopped 1 c }

/-- The addresses of the frame that interrupt entry pushes when SP was `sp`, in pushing order: pc, FL, `x[0]` to `x[6]`
(spec R183). -/
def frameCells (sp : Byte) : List Byte := [sp - 1, sp - 2, sp - 3, sp - 4, sp - 5, sp - 6, sp - 7, sp - 8, sp - 9]

end Sys2Proof.Machine
end

