-- ==== Sys2Proof/Certificates/Slice0/Obligations.lean ====
section
/-! DEFINITION. The statements for the provers. A register operand is written `regByte r`: these are the eight legal operand
bytes; what every other byte does is `Obligations.BadRegisterByteStops`. -/

open Sys2Proof Sys2Proof.Machine

/-! ### Encoding -/

/-- Decoding and encoding agree in both directions, for every operand byte (spec R50, R52, R55, R56, R58). The opcode values
are those the spec takes from the LS-8 family (its D4, log 8). -/
def Obligations.DecodeAndEncodeAgree : Prop :=
  ∀ (bs : List Byte) (i : Instr) (rest : List Byte), decode bs = .ok (i, rest) ↔ bs = encode i ++ rest

/-- Exactly the bytes that are no instruction's opcode are refused as unknown, whatever follows, and 230 of the 256 are
(spec R56, R57; opcode values by D4, log 8). -/
def Obligations.UnlistedOpcodesAreRefused : Prop :=
  (∀ (op : Byte) (rest : List Byte),
    decode (op :: rest) = .error (.unknownOpcode op) ↔ ∀ i : Instr, i.opcode ≠ op) ∧
  ((List.finRange 256).filter fun k => decide (decode [BitVec.ofFin k] = .error (.unknownOpcode (BitVec.ofFin k)))).length = 230

/-- Some words written out from the encodings of spec R52 and R55 decode to the instructions they stand for (D4, log 8). -/
def Obligations.SampleWordsDecode : Prop :=
  decode [0b10000010#8, 0b00000011#8, 0b11111111#8] = .ok (.ldi 3 255, []) ∧
  decode [0b01000101#8, 0b00000111#8] = .ok (.push 7, []) ∧
  decode [0b01010101#8, 0b00000010#8] = .ok (.jeq 2, []) ∧
  decode [0b10000100#8, 0b00000001#8, 0b00000000#8] = .ok (.st 1 0, []) ∧
  decode [0b10100111#8, 0b00000000#8, 0b00000001#8] = .ok (.cmp 0 1, []) ∧
  decode [0b00010011#8] = .ok (.iret, [])

/-! ### The cycle -/

/-- When the bytes at pc (after the poll) decode to an instruction, the step of a running machine is that instruction's
meaning at the polled state (spec R70 to R72). -/
def Obligations.StepRunsDecodedInstruction : Prop :=
  ∀ (s : State) (i : Instr) (rest : List Byte), s.run = .running →
    decode s.poll.fetchWindow = .ok (i, rest) → step s = exec i s.poll

/-- When the cells from pc on (after the poll) hold the encoding of `i` and all of them exist, the step of a running machine
is the meaning of `i` at the polled state (spec R50, R70, R71, R73). -/
def Obligations.StepRunsBytesAtPc : Prop :=
  ∀ (s : State) (i : Instr), s.run = .running →
    s.poll.pc.toNat + (encode i).length ≤ 256 →
    (∀ k, k < (encode i).length → (encode i)[k]? = some (s.poll.readByte (s.poll.pc + BitVec.ofNat 8 k))) →
    step s = exec i s.poll

/-- A byte at pc that is no opcode stops the machine with DecodeError, pc pointing at it and everything else as the poll left
it (spec R171, R175). -/
def Obligations.UnknownOpcodeStopsTheMachine : Prop :=
  ∀ (s : State), s.run = .running → (∀ i : Instr, i.opcode ≠ s.poll.readByte s.poll.pc) →
    ∃ t, step s = .next t ∧ Raised (.decode (s.poll.readByte s.poll.pc)) s.poll t

/-- An operand byte of a legal opcode beyond 0xFF stops the machine with BoundsError(fetch), no effect of the instruction
(spec R73, its decision D3, log 10). -/
def Obligations.OperandBeyondMemoryStops : Prop :=
  ∀ (s : State) (i : Instr), s.run = .running → s.poll.readByte s.poll.pc = i.opcode →
    s.poll.pc.toNat + nopnd i.opcode > 0xFF →
    ∃ t, step s = .next t ∧ Raised (.bounds .fetch) s.poll t

/-- A register operand byte above 7 stops the machine with BoundsError(regindex), with no effect of the instruction, for every
instruction that has a register operand, the first or the second (spec R74, its decisions D2 and D16, log 10). -/
def Obligations.BadRegisterByteStops : Prop :=
  ∀ (i : Instr) (s : State), i.wf = false → ∃ t, exec i s = .next t ∧ Raised (.bounds .regindex) s t

/-- Every step answers a next state: no state leaves the machine without one (spec R70, R77, R78; that stops are next states
is the model's choice, logs 4 and 5). -/
def Obligations.EveryStepAnswersNext : Prop :=
  ∀ s : State, ∃ t, step s = .next t

/-- A stopped machine stays as it is, however many steps are asked of it (spec R17 and R78; that a step of it is the identity is
the model's, log 4). -/
def Obligations.StoppedMachineStaysForever : Prop :=
  ∀ (k : Nat) (s : State) (status : Fin 2) (c : Cause), s.run = .stopped status c →
    Host.Core.run Sys2Proof.core k s = .next s

/-- What stops the machine in a step (spec R77, R170 to R174). Status 0 and HALT mean HLT. The other causes have status 1, and each
means its condition at the polled state: DecodeError, that the byte at pc is no opcode; division by zero, a MOD whose divisor register
holds 0; BoundsError(fetch), a legal opcode whose operand bytes go beyond 0xFF; BoundsError(regindex), an instruction with a register
byte above 7; BoundsError(pcoverflow), that pc plus the length is above 0xFF for an instruction that advances automatically, for CALL,
or for JEQ or JNE not taken (the three BoundsError policies are the spec's D1 to D3, logs 9 and 10). The unsupported ALU operation
never is the cause: that is the spec's D17, log 15. -/
def Obligations.OnlyListedStops : Prop :=
  ∀ (s t : State) (status : Fin 2) (c : Cause), s.run = .running → step s = .next t → t.run = .stopped status c →
    (status = 0 ↔ c = .halt) ∧
    (c = .halt ↔ s.poll.readByte s.poll.pc = Instr.hlt.opcode) ∧
    (∀ op, c = .decode op → op = s.poll.readByte s.poll.pc ∧ ∀ i : Instr, i.opcode ≠ op) ∧
    (c = .divzero → ∃ r q rest, decode s.poll.fetchWindow = .ok (.mod (regByte r) (regByte q), rest) ∧ s.poll.reg q = 0) ∧
    (c = .bounds .fetch → ∃ i : Instr, i.opcode = s.poll.readByte s.poll.pc ∧ s.poll.pc.toNat + nopnd i.opcode > 0xFF) ∧
    (c = .bounds .regindex → ∃ i rest, decode s.poll.fetchWindow = .ok (i, rest) ∧ i.wf = false) ∧
    (c = .bounds .pcoverflow → ∃ i rest, decode s.poll.fetchWindow = .ok (i, rest) ∧ i.wf = true ∧
      s.poll.pc.toNat + nopnd i.opcode + 1 > 0xFF ∧
      ((setsPc i.opcode = false ∧ i ≠ .hlt) ∨ (∃ r, i = .call (regByte r)) ∨
        (∃ r, i = .jeq (regByte r) ∧ s.poll.fl.getLsbD 0 = false) ∨ (∃ r, i = .jne (regByte r) ∧ s.poll.fl.getLsbD 0 = true))) ∧
    c ≠ .aluop

/-- Every fatal condition but the overflow of the automatic advance leaves the instruction without effect: the state is the one
before it with the report and the stop; the overflow of CALL, JEQ and JNE too (spec R176; the bounds checks are the spec's
decisions D1 to D3, logs 9 and 10). -/
def Obligations.FatalConditionsArePrecise : Prop :=
  ∀ (i : Instr) (s t : State) (c : Cause), s.run = .running → exec i s = .next t → t.run = .stopped 1 c →
    (c ≠ .bounds .pcoverflow ∨ setsPc i.opcode = true) → Raised c s t

/-- An automatic advance above 0xFF stops the machine after the instruction's effects, which are kept: registers, FL, memory and
output are those of the same instruction run at address 0, plus the report; pc keeps the instruction's address (spec R76, its
decision D1, log 9). -/
def Obligations.PcOverflowKeepsEffects : Prop :=
  ∀ (i : Instr) (s u : State), s.run = .running → setsPc i.opcode = false → i ≠ .hlt →
    exec i (s.setPc 0) = .next u → u.run = .running → s.pc.toNat + nopnd i.opcode + 1 > 0xFF →
    ∃ t, exec i s = .next t ∧ t.pc = s.pc ∧ t.run = .stopped 1 (.bounds .pcoverflow) ∧
      t.out = u.out ++ [.report (.bounds .pcoverflow)] ∧
      t.regs = u.regs ∧ t.fl = u.fl ∧ t.mem = u.mem ∧ t.ie = s.ie ∧ t.ltf = s.ltf ∧ t.inputs = s.inputs ∧ t.cycle = s.cycle

/-- CALL at 0xFE or above, and JEQ and JNE not taken there, stop with BoundsError(pcoverflow) before any effect (spec R76, R110,
R113, R114; its decision D1, log 9). -/
def Obligations.JumpOverflowHasNoEffect : Prop :=
  ∀ (r : RegIdx) (s : State), s.pc.toNat + 2 > 0xFF →
    (∃ t, exec (.call (regByte r)) s = .next t ∧ Raised (.bounds .pcoverflow) s t) ∧
    (s.fl.getLsbD 0 = false → ∃ t, exec (.jeq (regByte r)) s = .next t ∧ Raised (.bounds .pcoverflow) s t) ∧
    (s.fl.getLsbD 0 = true → ∃ t, exec (.jne (regByte r)) s = .next t ∧ Raised (.bounds .pcoverflow) s t)

/-- The PC-advance rule: an instruction whose sets-PC bit is 0, other than HLT, after which the machine still runs has moved pc
by its operand count plus one; HLT leaves pc; with the bit 1 the instruction alone determines pc: JMP and CALL the register (CALL's
read after the push), JEQ and JNE the register or pc + 2, RET and IRET the popped byte (spec R75; CALL R7 is its D13,
log 11; HLT and IRET are its D18 and D9, log 20). -/
def Obligations.PcAdvanceRule : Prop :=
  ∀ (i : Instr) (s t : State), s.run = .running → exec i s = .next t →
    (i = .hlt → t.pc = s.pc) ∧
    (t.run = .running →
      (setsPc i.opcode = false → t.pc.toNat = s.pc.toNat + nopnd i.opcode + 1) ∧
      (∀ r, i = .jmp (regByte r) → t.pc = s.reg r) ∧
      (∀ r, i = .call (regByte r) → t.pc = t.reg r) ∧
      (∀ r, i = .jeq (regByte r) → if s.fl.getLsbD 0 = true then t.pc = s.reg r else t.pc.toNat = s.pc.toNat + 2) ∧
      (∀ r, i = .jne (regByte r) → if s.fl.getLsbD 0 = false then t.pc = s.reg r else t.pc.toNat = s.pc.toNat + 2) ∧
      (i = .ret → t.pc = s.readByte (s.reg 7)) ∧
      (i = .iret → t.pc = s.readByte (s.reg 7 + 8)))

/-! ### Invariants and whole-machine rules -/

/-- The invariant holds at reset (spec R22; the memory fill and the empty image are logs 7 and 17). -/
def Obligations.ResetMeetsInvariant : Prop := Inv State.reset

/-- Every step keeps the invariant: memory stays in its canonical form within the 256 cells, and stops stay reported as spec R17,
R170 and R175 say (the canonical form is the model's, log 7; stops as next states, log 5). -/
def Obligations.StepKeepsInvariant : Prop :=
  ∀ s t : State, Inv s → step s = .next t → Inv t

/-- IE is written only by interrupt entry (to false) and by IRET (to true); no instruction reads it, the accept test does; entry
does not save it (spec R15). -/
def Obligations.IeWrittenOnlyByEntryAndIret : Prop :=
  (∀ (i : Instr) (s t : State), exec i s = .next t →
    t.ie = (if i = .iret then true else s.ie) ∧
    ∀ b, exec i (s.setIe b) = .next (t.setIe (if i = .iret then true else b))) ∧
  (∀ s : State, s.latchRequests.ie = s.ie ∧
    s.poll.ie = (if s.latchRequests.acceptedLine = none then s.ie else false)) ∧
  (∀ (s : State) (l : Line) (b : Bool), (s.setIe b).enterInterrupt l = s.enterInterrupt l) ∧
  (∀ s : State, (s.setIe false).interruptAccept = s.setIe false ∧
    (s.reg 5 &&& s.reg 6 ≠ 0 → ∃ l : Line, (s.setIe true).interruptAccept = s.enterInterrupt l))

/-- LTF is read and written only by the timer poll, which runs in every cycle; no instruction can read or write it (spec R16). -/
def Obligations.LtfOnlyForTheTimerPoll : Prop :=
  (∀ (i : Instr) (s t : State), exec i s = .next t →
    t.ltf = s.ltf ∧ ∀ n, exec i (s.setLtf n) = .next (t.setLtf n)) ∧
  (∀ (s : State) (k : Option Byte) (n : Time), (s.keyboardPoll k).ltf = s.ltf ∧
    (s.setLtf n).keyboardPoll k = (s.keyboardPoll k).setLtf n) ∧
  (∀ (s : State) (n : Time), s.interruptAccept.ltf = s.ltf ∧
    (s.setLtf n).interruptAccept = s.interruptAccept.setLtf n) ∧
  (∀ s : State, s.poll.ltf = (s.timerPoll s.nextInput.now).ltf)

/-- No instruction but CMP and IRET changes FL, and the poll, entry included, does not change it (spec R14, R130, R183). -/
def Obligations.FlagsWrittenOnlyByCmpAndIret : Prop :=
  (∀ (i : Instr) (s t : State), exec i s = .next t → (∀ ra rb, i ≠ .cmp ra rb) → i ≠ .iret → t.fl = s.fl) ∧
  (∀ s : State, s.poll.fl = s.fl)

/-- No instruction but ST, PUSH and CALL changes any byte of memory (spec R32). -/
def Obligations.MemoryWrittenOnlyByStoresAndPushes : Prop :=
  ∀ (i : Instr) (s t : State), exec i s = .next t →
    (∀ ra rb, i ≠ .st ra rb) → (∀ ra, i ≠ .push ra) → (∀ ra, i ≠ .call ra) → ∀ a, t.readByte a = s.readByte a

/-- Instructions do not consult the environment: the readings still to come have no influence on them and pass through; and each
cycle of a running machine uses up exactly one reading (spec R80; how readings are held is the model's, log 1). -/
def Obligations.OneReadingPerCycleAndNoneByInstructions : Prop :=
  (∀ (i : Instr) (s t : State) (es : List EnvInput) (n : Nat), exec i s = .next t →
    exec i { s with inputs := es, cycle := n } = .next { t with inputs := es, cycle := n }) ∧
  (∀ s t : State, s.run = .running → step s = .next t → t.inputs = s.inputs.tail ∧ t.cycle = s.cycle + 1)

/-- The output stream is append-only and never read: a step appends some events, and with any other earlier output it does the
same and appends the same (spec R18). -/
def Obligations.OutputIsAppendedAndNeverRead : Prop :=
  ∀ s t : State, step s = .next t →
    ∃ new : List Event, new.length ≤ 2 ∧ t.out = s.out ++ new ∧
      ∀ o : List Event, step { s with out := o } = .next { t with out := o ++ new }

/-! ### Load immediate, output, halt -/

/-- LDI (spec R90): the register takes the immediate, every value of it; nothing else changes but pc. -/
def Obligations.LdiLoadsImmediate : Prop :=
  ∀ (r : RegIdx) (imm : Byte) (s : State), s.pc.toNat + 3 ≤ 0xFF →
    ∃ t, exec (.ldi (regByte r) imm) s = .next t ∧ t.reg r = imm ∧ t.pc.toNat = s.pc.toNat + 3 ∧
      Frame [r] [] s t ∧ t.fl = s.fl ∧ t.out = s.out

/-- PRN and PRA (spec R91, R92): the event with the register's value is appended to the output; nothing else changes but pc. -/
def Obligations.PrnAndPraEmitRegister : Prop :=
  ∀ (r : RegIdx) (s : State), s.pc.toNat + 2 ≤ 0xFF →
    (∃ t, exec (.prn (regByte r)) s = .next t ∧ t.out = s.out ++ [.dec (s.reg r)] ∧ t.pc.toNat = s.pc.toNat + 2 ∧
      Frame [] [] s t ∧ t.fl = s.fl) ∧
    (∃ t, exec (.pra (regByte r)) s = .next t ∧ t.out = s.out ++ [.chr (s.reg r)] ∧ t.pc.toNat = s.pc.toNat + 2 ∧
      Frame [] [] s t ∧ t.fl = s.fl)

/-- What the events look like outside (spec R91, R92): the decimal digits of the unsigned value, no leading zero, then one line
feed (the line feed is the spec's D15, log 16); and one character of that code point, nothing after it. -/
def Obligations.OutputEventsRender : Prop :=
  ∀ v : Byte,
    (∃ ds : List Nat, renderEvent (.dec v) = some (ds.map (fun d => Char.ofNat (48 + d)) ++ [Char.ofNat 10]) ∧
      (∀ d ∈ ds, d < 10) ∧ ds.foldl (fun n d => 10 * n + d) 0 = v.toNat ∧ ds ≠ [] ∧ (ds.head? = some 0 → ds = [0])) ∧
    renderEvent (.chr v) = some [Char.ofNat v.toNat]

/-- HLT (spec R93): the machine stops with status 0 and cause HALT; nothing else changes, pc too (its decision D18, log 20) and
nothing is emitted, at every address. The number 0 of HALT is the spec's D14, log 19. -/
def Obligations.HltStopsWithStatusZero : Prop :=
  ∀ s : State, ∃ t, exec .hlt s = .next t ∧ t.run = .stopped 0 .halt ∧
    t = { s with run := t.run } ∧ exitStatus t.run = some 0 ∧ causeCode .halt = 0

/-! ### Stack -/

/-- PUSH (spec R100, R102): SP goes down by one modulo 256, the register's value before that is stored at the new SP, and nothing
else changes but pc. For register 7 the value is the old SP (the spec's D12, log 11). -/
def Obligations.PushStoresRegister : Prop :=
  ∀ (r : RegIdx) (s : State), s.pc.toNat + 2 ≤ 0xFF →
    ∃ t, exec (.push (regByte r)) s = .next t ∧ (t.reg 7).toNat = ((s.reg 7).toNat + 255) % 256 ∧
      t.readByte (t.reg 7) = s.reg r ∧ t.pc.toNat = s.pc.toNat + 2 ∧
      Frame [7] [s.reg 7 - 1] s t ∧ t.fl = s.fl ∧ t.out = s.out

/-- POP (spec R101, R103): the register takes the byte at the old SP; SP goes up by one modulo 256, unless the register is SP
itself, which ends as the popped byte (the spec's D12, log 11); memory does not change. -/
def Obligations.PopLoadsRegister : Prop :=
  ∀ (r : RegIdx) (s : State), s.pc.toNat + 2 ≤ 0xFF →
    ∃ t, exec (.pop (regByte r)) s = .next t ∧ t.reg r = s.readByte (s.reg 7) ∧
      (r ≠ 7 → (t.reg 7).toNat = ((s.reg 7).toNat + 1) % 256) ∧ t.pc.toNat = s.pc.toNat + 2 ∧
      Frame [r, 7] [] s t ∧ t.fl = s.fl ∧ t.out = s.out

/-- The primitive `Push(v)` (spec R100): "decrement SP, write value at new SP", for every byte and every SP. -/
def Obligations.PushPrimitive : Prop :=
  ∀ (s : State) (v : Byte),
    ((s.push v).reg 7).toNat = ((s.reg 7).toNat + 255) % 256 ∧ (s.push v).readByte ((s.push v).reg 7) = v ∧
    Frame [7] [(s.push v).reg 7] s (s.push v) ∧
    (s.push v).pc = s.pc ∧ (s.push v).fl = s.fl ∧ (s.push v).out = s.out

/-- The primitive `Pop()` (spec R101): "read at SP, increment SP"; the cell keeps its contents, and a pop gives back what the
push just before it stored and the SP before it. -/
def Obligations.PopPrimitive : Prop :=
  ∀ (s : State),
    s.pop.1 = s.readByte (s.reg 7) ∧ (s.pop.2.reg 7).toNat = ((s.reg 7).toNat + 1) % 256 ∧
    Frame [7] [] s s.pop.2 ∧ s.pop.2.pc = s.pc ∧ s.pop.2.fl = s.fl ∧ s.pop.2.out = s.out ∧
    ∀ v, (s.push v).pop.1 = v ∧ (s.push v).pop.2.reg 7 = s.reg 7

/-- The balance property (spec R105): PUSH of a register, an inner PUSH and POP of another, then POP of the first restore both and SP, for
registers other than SP; only the two stack cells may have changed. -/
def Obligations.NestedPushPopBalances : Prop :=
  ∀ (r q : RegIdx) (s : State), r ≠ 7 → q ≠ 7 → s.pc.toNat + 8 ≤ 0xFF →
    ∃ t1 t2 t3 t4, exec (.push (regByte r)) s = .next t1 ∧ exec (.push (regByte q)) t1 = .next t2 ∧
      exec (.pop (regByte q)) t2 = .next t3 ∧ exec (.pop (regByte r)) t3 = .next t4 ∧
      t4.pc.toNat = s.pc.toNat + 8 ∧ Frame [] [s.reg 7 - 1, s.reg 7 - 2] s t4 ∧
      t4.readByte (s.reg 7 - 1) = s.reg r ∧ t4.readByte (s.reg 7 - 2) = s.reg q ∧ t4.fl = s.fl ∧ t4.out = s.out

/-! ### Control transfer -/

/-- CALL (spec R110): pc + 2 is pushed, then pc takes the register, read after the push: for register 7 it is the decremented SP (the
spec's D13, log 11). -/
def Obligations.CallPushesReturnAddress : Prop :=
  ∀ (r : RegIdx) (s : State), s.pc.toNat + 2 ≤ 0xFF →
    ∃ t, exec (.call (regByte r)) s = .next t ∧ (t.reg 7).toNat = ((s.reg 7).toNat + 255) % 256 ∧
      (t.readByte (t.reg 7)).toNat = s.pc.toNat + 2 ∧ t.pc = (if r = 7 then t.reg 7 else s.reg r) ∧
      Frame [7] [s.reg 7 - 1] s t ∧ t.fl = s.fl ∧ t.out = s.out

/-- RET (spec R111): pc takes the byte at SP, SP goes up by one modulo 256, nothing else changes, IE too. -/
def Obligations.RetPopsPc : Prop :=
  ∀ s : State, ∃ t, exec .ret s = .next t ∧ t.pc = s.readByte (s.reg 7) ∧
    (t.reg 7).toNat = ((s.reg 7).toNat + 1) % 256 ∧ Frame [7] [] s t ∧ t.fl = s.fl ∧ t.out = s.out

/-- CALL then RET (spec R111): a RET in any state that has SP and the stack cell as CALL left them goes to the call site plus 2 and has the
SP from before the CALL. -/
def Obligations.CallThenRetReturns : Prop :=
  ∀ (r : RegIdx) (s t h : State), s.pc.toNat + 2 ≤ 0xFF → exec (.call (regByte r)) s = .next t →
    h.reg 7 = t.reg 7 → h.readByte (h.reg 7) = t.readByte (t.reg 7) →
    ∃ u, exec .ret h = .next u ∧ u.pc.toNat = s.pc.toNat + 2 ∧ u.reg 7 = s.reg 7

/-- JMP (spec R112): pc takes the register, at every address; nothing else changes. -/
def Obligations.JmpGoesToRegister : Prop :=
  ∀ (r : RegIdx) (s : State), ∃ t, exec (.jmp (regByte r)) s = .next t ∧ t.pc = s.reg r ∧
    Frame [] [] s t ∧ t.fl = s.fl ∧ t.out = s.out

/-- JEQ and JNE (spec R113, R114): taken when E is 1, respectively 0, at every address; not taken, pc moves by 2; nothing else
changes. -/
def Obligations.JeqAndJneFollowEqualFlag : Prop :=
  ∀ (r : RegIdx) (s : State),
    (s.fl.getLsbD 0 = true →
      ∃ t, exec (.jeq (regByte r)) s = .next t ∧ t.pc = s.reg r ∧ Frame [] [] s t ∧ t.fl = s.fl ∧ t.out = s.out) ∧
    (s.fl.getLsbD 0 = false → s.pc.toNat + 2 ≤ 0xFF →
      ∃ t, exec (.jeq (regByte r)) s = .next t ∧ t.pc.toNat = s.pc.toNat + 2 ∧ Frame [] [] s t ∧ t.fl = s.fl ∧
        t.out = s.out) ∧
    (s.fl.getLsbD 0 = false →
      ∃ t, exec (.jne (regByte r)) s = .next t ∧ t.pc = s.reg r ∧ Frame [] [] s t ∧ t.fl = s.fl ∧ t.out = s.out) ∧
    (s.fl.getLsbD 0 = true → s.pc.toNat + 2 ≤ 0xFF →
      ∃ t, exec (.jne (regByte r)) s = .next t ∧ t.pc.toNat = s.pc.toNat + 2 ∧ Frame [] [] s t ∧ t.fl = s.fl ∧
        t.out = s.out)

/-! ### Load and store -/

/-- LD (spec R120): the first register takes the byte at the address in the second; memory and the other registers do not change. -/
def Obligations.LdLoadsByte : Prop :=
  ∀ (r q : RegIdx) (s : State), s.pc.toNat + 3 ≤ 0xFF →
    ∃ t, exec (.ld (regByte r) (regByte q)) s = .next t ∧ t.reg r = s.readByte (s.reg q) ∧
      t.pc.toNat = s.pc.toNat + 3 ∧ Frame [r] [] s t ∧ t.fl = s.fl ∧ t.out = s.out

/-- ST (spec R121): the byte at the address in the FIRST register becomes the value of the second, at every address; every other byte and
every register is as before. That the vector cells can be written is the spec's reading (its C3, R37; log 21). -/
def Obligations.StStoresByte : Prop :=
  ∀ (r q : RegIdx) (s : State), s.pc.toNat + 3 ≤ 0xFF →
    ∃ t, exec (.st (regByte r) (regByte q)) s = .next t ∧ t.readByte (s.reg r) = s.reg q ∧
      t.pc.toNat = s.pc.toNat + 3 ∧ Frame [] [s.reg r] s t ∧ t.fl = s.fl ∧ t.out = s.out

/-- A store is seen by the very next fetch (spec R41): if ST stores to the address of the next instruction, no request is accepted in the
next cycle's poll, and that poll deposits no key in this very cell, the first byte fetched is the stored one. If it deposits a key
there, the first byte fetched is the key. -/
def Obligations.StoreIsSeenByNextFetch : Prop :=
  ∀ (r q : RegIdx) (s t : State), s.pc.toNat + 3 ≤ 0xFF → exec (.st (regByte r) (regByte q)) s = .next t →
    (s.reg r).toNat = s.pc.toNat + 3 → t.latchRequests.acceptedLine = none →
    (t.nextInput.key = none ∨ s.reg r ≠ 0xF4 → t.poll.fetchWindow.head? = some (s.reg q)) ∧
    (∀ k, t.nextInput.key = some k → s.reg r = 0xF4 → t.poll.fetchWindow.head? = some k)

/-! ### ALU -/

/-- ADD and MUL (spec R131, R132, R143): sum and product modulo 256 in the first register; nothing else changes, FL too; the registers may be
the same. -/
def Obligations.AddAndMulModulo256 : Prop :=
  ∀ (r q : RegIdx) (s : State), s.pc.toNat + 3 ≤ 0xFF →
    (∃ t, exec (.add (regByte r) (regByte q)) s = .next t ∧
      (t.reg r).toNat = ((s.reg r).toNat + (s.reg q).toNat) % 256 ∧
      t.pc.toNat = s.pc.toNat + 3 ∧ Frame [r] [] s t ∧ t.fl = s.fl ∧ t.out = s.out) ∧
    (∃ t, exec (.mul (regByte r) (regByte q)) s = .next t ∧
      (t.reg r).toNat = ((s.reg r).toNat * (s.reg q).toNat) % 256 ∧
      t.pc.toNat = s.pc.toNat + 3 ∧ Frame [r] [] s t ∧ t.fl = s.fl ∧ t.out = s.out)

/-- AND, OR, XOR (spec R133 to R135): bit by bit on the 8 bits. -/
def Obligations.AndOrXorBitwise : Prop :=
  ∀ (r q : RegIdx) (s : State), s.pc.toNat + 3 ≤ 0xFF →
    (∃ t, exec (.and (regByte r) (regByte q)) s = .next t ∧
      (∀ k : Fin 8, (t.reg r).getLsbD k = ((s.reg r).getLsbD k && (s.reg q).getLsbD k)) ∧
      t.pc.toNat = s.pc.toNat + 3 ∧ Frame [r] [] s t ∧ t.fl = s.fl ∧ t.out = s.out) ∧
    (∃ t, exec (.or (regByte r) (regByte q)) s = .next t ∧
      (∀ k : Fin 8, (t.reg r).getLsbD k = ((s.reg r).getLsbD k || (s.reg q).getLsbD k)) ∧
      t.pc.toNat = s.pc.toNat + 3 ∧ Frame [r] [] s t ∧ t.fl = s.fl ∧ t.out = s.out) ∧
    (∃ t, exec (.xor (regByte r) (regByte q)) s = .next t ∧
      (∀ k : Fin 8, (t.reg r).getLsbD k = ((s.reg r).getLsbD k != (s.reg q).getLsbD k)) ∧
      t.pc.toNat = s.pc.toNat + 3 ∧ Frame [r] [] s t ∧ t.fl = s.fl ∧ t.out = s.out)

/-- NOT, INC, DEC (spec R136, R140, R141, R143): 255 - a, (a + 1) mod 256, (a - 1) mod 256; two bytes; nothing else changes, FL too. -/
def Obligations.NotIncDecResults : Prop :=
  ∀ (r : RegIdx) (s : State), s.pc.toNat + 2 ≤ 0xFF →
    (∃ t, exec (.not (regByte r)) s = .next t ∧ (t.reg r).toNat = 255 - (s.reg r).toNat ∧
      t.pc.toNat = s.pc.toNat + 2 ∧ Frame [r] [] s t ∧ t.fl = s.fl ∧ t.out = s.out) ∧
    (∃ t, exec (.inc (regByte r)) s = .next t ∧ (t.reg r).toNat = ((s.reg r).toNat + 1) % 256 ∧
      t.pc.toNat = s.pc.toNat + 2 ∧ Frame [r] [] s t ∧ t.fl = s.fl ∧ t.out = s.out) ∧
    (∃ t, exec (.dec (regByte r)) s = .next t ∧ (t.reg r).toNat = ((s.reg r).toNat + 255) % 256 ∧
      t.pc.toNat = s.pc.toNat + 2 ∧ Frame [r] [] s t ∧ t.fl = s.fl ∧ t.out = s.out)

/-- SHL and SHR (spec R137, R138): the whole value of the second register is the amount, not reduced, so the result is 0 from 8 up (the spec's
D11, log 13); SHR is logical. -/
def Obligations.ShiftsByWholeAmount : Prop :=
  ∀ (r q : RegIdx) (s : State), s.pc.toNat + 3 ≤ 0xFF →
    (∃ t, exec (.shl (regByte r) (regByte q)) s = .next t ∧
      (t.reg r).toNat = ((s.reg r).toNat * 2 ^ (s.reg q).toNat) % 256 ∧
      t.pc.toNat = s.pc.toNat + 3 ∧ Frame [r] [] s t ∧ t.fl = s.fl ∧ t.out = s.out) ∧
    (∃ t, exec (.shr (regByte r) (regByte q)) s = .next t ∧
      (t.reg r).toNat = (s.reg r).toNat / 2 ^ (s.reg q).toNat ∧
      t.pc.toNat = s.pc.toNat + 3 ∧ Frame [r] [] s t ∧ t.fl = s.fl ∧ t.out = s.out)

/-- MOD with a divisor other than 0 (spec R139): the unsigned remainder. -/
def Obligations.ModGivesRemainder : Prop :=
  ∀ (r q : RegIdx) (s : State), s.pc.toNat + 3 ≤ 0xFF → s.reg q ≠ 0 →
    ∃ t, exec (.mod (regByte r) (regByte q)) s = .next t ∧
      (t.reg r).toNat = (s.reg r).toNat % (s.reg q).toNat ∧
      t.pc.toNat = s.pc.toNat + 3 ∧ Frame [r] [] s t ∧ t.fl = s.fl ∧ t.out = s.out

/-- Division by zero (spec R173): raised by MOD, and only by MOD, when the divisor register holds 0; status 1, pc at the MOD, no register, flag
or memory change. -/
def Obligations.ModByZeroStops : Prop :=
  (∀ (r q : RegIdx) (s : State), s.reg q = 0 →
    ∃ t, exec (.mod (regByte r) (regByte q)) s = .next t ∧ Raised .divzero s t) ∧
  (∀ (i : Instr) (s t : State) (n : Fin 2), s.run = .running → exec i s = .next t → t.run = .stopped n .divzero →
    ∃ r q, i = .mod (regByte r) (regByte q) ∧ s.reg q = 0)

/-- CMP (spec R142, R14): L, G and E of FL from the unsigned order of the two registers, each set or cleared; bits 7:3 kept (the spec's D10,
log 12); no register changes. -/
def Obligations.CmpSetsFlags : Prop :=
  ∀ (r q : RegIdx) (s : State), s.pc.toNat + 3 ≤ 0xFF →
    ∃ t, exec (.cmp (regByte r) (regByte q)) s = .next t ∧
      (t.fl.getLsbD 2 = true ↔ (s.reg r).toNat < (s.reg q).toNat) ∧
      (t.fl.getLsbD 1 = true ↔ (s.reg r).toNat > (s.reg q).toNat) ∧
      (t.fl.getLsbD 0 = true ↔ s.reg r = s.reg q) ∧
      (∀ k : Fin 8, 3 ≤ k.val → t.fl.getLsbD k = s.fl.getLsbD k) ∧
      t.pc.toNat = s.pc.toNat + 3 ∧ Frame [] [] s t ∧ t.out = s.out

/-! ### Interrupts -/

/-- The timer poll (spec R179): due when strictly more than the period has passed since LTF, whatever IM and IE; then IS bit 0 is set and LTF is
now; nothing else changes. The unit of time is the model's (log 2). -/
def Obligations.TimerPollSetsLineZero : Prop :=
  ∀ (s : State) (now : Time),
    (now - s.ltf > Config.timerPeriod →
      (∀ k : Fin 8, ((s.timerPoll now).reg 6).getLsbD k = (decide (k = 0) || (s.reg 6).getLsbD k)) ∧
      (∀ r, r ≠ 6 → (s.timerPoll now).reg r = s.reg r) ∧
      s.timerPoll now = { s with regs := (s.timerPoll now).regs, ltf := now }) ∧
    (¬ now - s.ltf > Config.timerPeriod → s.timerPoll now = s)

/-- The keyboard poll (spec R180): a key's code goes to cell 0xF4 and IS bit 1 is set; without a key nothing changes. It runs in every
cycle, whatever IM and IE: after the two polls of a cycle with key `k`, cell 0xF4 holds `k` and bit 1 is set, and without a key both
are as before. -/
def Obligations.KeyboardPollDepositsKey : Prop :=
  ∀ (s : State),
    (∀ k : Byte, (s.keyboardPoll (some k)).readByte 0xF4 = k ∧
      (∀ j : Fin 8, ((s.keyboardPoll (some k)).reg 6).getLsbD j = (decide (j = 1) || (s.reg 6).getLsbD j)) ∧
      Frame [6] [0xF4] s (s.keyboardPoll (some k)) ∧
      (s.keyboardPoll (some k)).pc = s.pc ∧ (s.keyboardPoll (some k)).fl = s.fl ∧ (s.keyboardPoll (some k)).out = s.out) ∧
    s.keyboardPoll none = s ∧
    (∀ k : Byte, s.nextInput.key = some k →
      s.latchRequests.readByte 0xF4 = k ∧ (s.latchRequests.reg 6).getLsbD 1 = true) ∧
    (s.nextInput.key = none →
      s.latchRequests.readByte 0xF4 = s.readByte 0xF4 ∧ (s.latchRequests.reg 6).getLsbD 1 = (s.reg 6).getLsbD 1)

/-- Both polls run in every cycle, whatever IM, IE and the other poll (spec R177 to R180), and change exactly this: IS bit 0 is set if more
than the period has passed, and LTF is then the reading; IS bit 1 is set if there is a key, and cell 0xF4 then holds it. What is set
stays set; lines 2 to 7 have no hardware source (log 26); nothing else changes but the model's own fields (log 1, log 23). The unit of time is log 2. -/
def Obligations.OnlyTwoLinesHaveSources : Prop :=
  ∀ s : State,
    (s.latchRequests.reg 6).getLsbD 0 =
      ((s.reg 6).getLsbD 0 || decide (s.nextInput.now - s.ltf > Config.timerPeriod)) ∧
    s.latchRequests.ltf = (if s.nextInput.now - s.ltf > Config.timerPeriod then s.nextInput.now else s.ltf) ∧
    (s.latchRequests.reg 6).getLsbD 1 = ((s.reg 6).getLsbD 1 || s.nextInput.key.isSome) ∧
    s.latchRequests.readByte 0xF4 = s.nextInput.key.getD (s.readByte 0xF4) ∧
    (∀ k : Fin 8, 2 ≤ k.val → (s.latchRequests.reg 6).getLsbD k = (s.reg 6).getLsbD k) ∧
    (∀ r, r ≠ 6 → s.latchRequests.reg r = s.reg r) ∧ (∀ a, a ≠ 0xF4 → s.latchRequests.readByte a = s.readByte a) ∧
    s.latchRequests.pc = s.pc ∧ s.latchRequests.fl = s.fl ∧ s.latchRequests.ie = s.ie ∧ s.latchRequests.run = s.run ∧
    s.latchRequests.out = s.out ∧ s.latchRequests.inputs = s.inputs.tail ∧ s.latchRequests.cycle = s.cycle + 1

/-- The accept test and the priority (spec R181, R182), after the two polls of the same cycle: with IE, the lowest-numbered line that is
pending and enabled is entered, and only that one, so every other pending bit stays; without IE, or with no line both pending and
enabled, nothing happens. -/
def Obligations.LowestEnabledPendingLineIsAccepted : Prop :=
  ∀ s u : State, u = s.latchRequests →
    (∀ i : Line, u.ie = true → (u.reg 5).getLsbD i = true → (u.reg 6).getLsbD i = true →
      (∀ j : Line, j < i → ¬ ((u.reg 5).getLsbD j = true ∧ (u.reg 6).getLsbD j = true)) →
      s.poll = u.enterInterrupt i ∧ ∀ k : Line, k ≠ i → (s.poll.reg 6).getLsbD k = (u.reg 6).getLsbD k) ∧
    (u.ie = false → s.poll = u) ∧
    (u.reg 5 &&& u.reg 6 = 0 → s.poll = u)

/-- Interrupt entry (spec R183), when line i is accepted: the accepted IS bit is cleared, IE is cleared, nine bytes are pushed (pc, FL,
`x[0]` to `x[5]`, IS with the bit cleared), SP ends nine lower modulo 256, pc takes the vector as memory then holds it, and nothing
else changes. -/
def Obligations.InterruptEntrySavesContext : Prop :=
  ∀ (s t : State) (i : Line), s.ie = true → (s.reg 5).getLsbD i = true → (s.reg 6).getLsbD i = true →
    (∀ j : Line, j < i → ¬ ((s.reg 5).getLsbD j = true ∧ (s.reg 6).getLsbD j = true)) → t = s.interruptAccept →
    (∀ k : Fin 8, (t.reg 6).getLsbD k = ((s.reg 6).getLsbD k && decide (k ≠ i))) ∧
    (t.reg 7).toNat = ((s.reg 7).toNat + 247) % 256 ∧ (∀ r, r ≠ 6 → r ≠ 7 → t.reg r = s.reg r) ∧
    t.ie = false ∧ t.fl = s.fl ∧
    (frameCells (s.reg 7)).map t.readByte =
      [s.pc, s.fl, s.reg 0, s.reg 1, s.reg 2, s.reg 3, s.reg 4, s.reg 5, t.reg 6] ∧
    (∀ a, a ∉ frameCells (s.reg 7) → t.readByte a = s.readByte a) ∧
    t.pc = t.readByte (0xF8 + BitVec.ofNat 8 i.val) ∧
    t.ltf = s.ltf ∧ t.run = s.run ∧ t.out = s.out ∧ t.inputs = s.inputs ∧ t.cycle = s.cycle

/-- IRET (spec R160): the nine bytes from SP up go to `x[6]` down to `x[0]`, FL (all 8 bits, its D10, log 12) and pc (no advance, its D9, log 20); SP
ends nine higher modulo 256; IE is true; memory and the rest do not change. -/
def Obligations.IretRestoresFromStack : Prop :=
  ∀ s : State, ∃ t, exec .iret s = .next t ∧
    [t.reg 6, t.reg 5, t.reg 4, t.reg 3, t.reg 2, t.reg 1, t.reg 0, t.fl, t.pc] =
      [s.reg 7, s.reg 7 + 1, s.reg 7 + 2, s.reg 7 + 3, s.reg 7 + 4, s.reg 7 + 5, s.reg 7 + 6, s.reg 7 + 7,
        s.reg 7 + 8].map s.readByte ∧
    (t.reg 7).toNat = ((s.reg 7).toNat + 9) % 256 ∧ t.ie = true ∧ (∀ a, t.readByte a = s.readByte a) ∧
    t.ltf = s.ltf ∧ t.run = s.run ∧ t.out = s.out ∧ t.inputs = s.inputs ∧ t.cycle = s.cycle

/-- A handler that ends in IRET with SP and the nine saved bytes as entry left them gives the interrupted program back exactly: pc, FL, `x[0]` to
`x[5]`, SP, and IS as at entry with the accepted bit cleared, whatever else the handler did; and IE is true (spec R160, R187, R207). That FL comes back whole is the
spec's D10, log 12, and that no advance follows the popped pc its D9, log 20. -/
def Obligations.HandlerEndingInIretRestoresContext : Prop :=
  ∀ (s h : State) (i : Line), h.reg 7 = (s.enterInterrupt i).reg 7 →
    (∀ a, a ∈ frameCells (s.reg 7) → h.readByte a = (s.enterInterrupt i).readByte a) →
    ∃ t, exec .iret h = .next t ∧ t.pc = s.pc ∧ t.fl = s.fl ∧ t.ie = true ∧ (∀ r, r ≠ 6 → t.reg r = s.reg r) ∧
      (∀ k : Fin 8, (t.reg 6).getLsbD k = ((s.reg 6).getLsbD k && decide (k ≠ i))) ∧
      (∀ a, t.readByte a = h.readByte a)

/-- Timer and key in one cycle (spec R185): both bits are latched, line 0 is entered, and line 1 stays pending in IS and in the saved copy of it. -/
def Obligations.SimultaneousRequestsServeTimerFirst : Prop :=
  ∀ (s : State) (k : Byte), s.ie = true → (s.reg 5).getLsbD 0 = true → s.nextInput.now - s.ltf > Config.timerPeriod →
    s.nextInput.key = some k →
    s.poll = s.latchRequests.enterInterrupt 0 ∧ (s.latchRequests.reg 6).getLsbD 0 = true ∧
    (s.poll.reg 6).getLsbD 0 = false ∧ (s.poll.reg 6).getLsbD 1 = true ∧
    (s.poll.readByte (s.reg 7 - 9)).getLsbD 1 = true ∧ s.latchRequests.readByte 0xF4 = k

/-! ### Reset -/

/-- Reset (spec R22, R200, R202): pc 0, IE set, running, nothing emitted; registers 0 to 6 and FL zero and SP 0xF4 and every cell zero by the spec's
decisions D5 to D7 (logs 6 and 7); LTF is the time of reset by its D8, which is 0 in the model's unit of time (log 2). -/
def Obligations.ResetStateIsAsListed : Prop :=
  State.reset.pc = 0 ∧ State.reset.ie = true ∧ State.reset.run = .running ∧ State.reset.out = [] ∧
  State.reset.ltf = 0 ∧ State.reset.fl = 0 ∧ State.reset.reg 7 = 0xF4 ∧ (∀ r, r ≠ 7 → State.reset.reg r = 0) ∧ ∀ a, State.reset.readByte a = 0

/-- The loader contract (spec R201): an image of at most 256 bytes stands in memory from address 0, the other cells are 0 (its D7, log 7) and the
rest is the reset state; a longer image is refused (its D20, log 17). -/
def Obligations.BootPlacesImage : Prop :=
  (∀ image : List Byte, image.length ≤ 256 →
    ∃ t, boot image = .next t ∧ t = { State.reset with mem := t.mem } ∧
      (∀ k, k < image.length → some (t.readByte (BitVec.ofNat 8 k)) = image[k]?) ∧
      (∀ k, image.length ≤ k → k < 256 → t.readByte (BitVec.ofNat 8 k) = 0) ∧ Memory.wf t.mem = true) ∧
  (∀ image : List Byte, image.length > 256 → boot image = .refused (.imageTooLong image.length))

/-- The first cycle after reset accepts nothing, whatever the environment answers: the first instruction is fetched at address 0 with IE set (spec
R200, R202). It rests on IM being 0 at reset (the spec's D6, log 6). -/
def Obligations.FirstFetchIsAtAddressZero : Prop :=
  ∀ (image : List Byte) (t : State) (es : List EnvInput) (n : Nat), boot image = .next t →
    ({ t with inputs := es, cycle := n } : State).poll.pc = 0 ∧ ({ t with inputs := es, cycle := n } : State).poll.ie = true
end

