-- ==== Sys2Proof/Laws/State.lean ====
section
/-! SUPPORT. One lemma per field per update of the state, each true by rfl, so that no proof unfolds a record update. -/

namespace Sys2Proof.Machine

variable (s : State)

/-! ### setReg -/

@[simp] theorem State.setReg_regs (i : RegIdx) (v : Byte) : (s.setReg i v).regs = s.regs.set i v := rfl
@[simp] theorem State.setReg_pc (i : RegIdx) (v : Byte) : (s.setReg i v).pc = s.pc := rfl
@[simp] theorem State.setReg_fl (i : RegIdx) (v : Byte) : (s.setReg i v).fl = s.fl := rfl
@[simp] theorem State.setReg_ie (i : RegIdx) (v : Byte) : (s.setReg i v).ie = s.ie := rfl
@[simp] theorem State.setReg_ltf (i : RegIdx) (v : Byte) : (s.setReg i v).ltf = s.ltf := rfl
@[simp] theorem State.setReg_run (i : RegIdx) (v : Byte) : (s.setReg i v).run = s.run := rfl
@[simp] theorem State.setReg_out (i : RegIdx) (v : Byte) : (s.setReg i v).out = s.out := rfl
@[simp] theorem State.setReg_mem (i : RegIdx) (v : Byte) : (s.setReg i v).mem = s.mem := rfl
@[simp] theorem State.setReg_inputs (i : RegIdx) (v : Byte) : (s.setReg i v).inputs = s.inputs := rfl
@[simp] theorem State.setReg_cycle (i : RegIdx) (v : Byte) : (s.setReg i v).cycle = s.cycle := rfl
@[simp] theorem State.setReg_readByte (i : RegIdx) (v : Byte) (x : Byte) : (s.setReg i v).readByte x = s.readByte x := rfl

/-! ### setPc -/

@[simp] theorem State.setPc_regs (v : Byte) : (s.setPc v).regs = s.regs := rfl
@[simp] theorem State.setPc_pc (v : Byte) : (s.setPc v).pc = v := rfl
@[simp] theorem State.setPc_fl (v : Byte) : (s.setPc v).fl = s.fl := rfl
@[simp] theorem State.setPc_ie (v : Byte) : (s.setPc v).ie = s.ie := rfl
@[simp] theorem State.setPc_ltf (v : Byte) : (s.setPc v).ltf = s.ltf := rfl
@[simp] theorem State.setPc_run (v : Byte) : (s.setPc v).run = s.run := rfl
@[simp] theorem State.setPc_out (v : Byte) : (s.setPc v).out = s.out := rfl
@[simp] theorem State.setPc_mem (v : Byte) : (s.setPc v).mem = s.mem := rfl
@[simp] theorem State.setPc_inputs (v : Byte) : (s.setPc v).inputs = s.inputs := rfl
@[simp] theorem State.setPc_cycle (v : Byte) : (s.setPc v).cycle = s.cycle := rfl
@[simp] theorem State.setPc_reg (v : Byte) (r : RegIdx) : (s.setPc v).reg r = s.reg r := rfl
@[simp] theorem State.setPc_readByte (v : Byte) (x : Byte) : (s.setPc v).readByte x = s.readByte x := rfl

/-! ### setFl -/

@[simp] theorem State.setFl_regs (v : Byte) : (s.setFl v).regs = s.regs := rfl
@[simp] theorem State.setFl_pc (v : Byte) : (s.setFl v).pc = s.pc := rfl
@[simp] theorem State.setFl_fl (v : Byte) : (s.setFl v).fl = v := rfl
@[simp] theorem State.setFl_ie (v : Byte) : (s.setFl v).ie = s.ie := rfl
@[simp] theorem State.setFl_ltf (v : Byte) : (s.setFl v).ltf = s.ltf := rfl
@[simp] theorem State.setFl_run (v : Byte) : (s.setFl v).run = s.run := rfl
@[simp] theorem State.setFl_out (v : Byte) : (s.setFl v).out = s.out := rfl
@[simp] theorem State.setFl_mem (v : Byte) : (s.setFl v).mem = s.mem := rfl
@[simp] theorem State.setFl_inputs (v : Byte) : (s.setFl v).inputs = s.inputs := rfl
@[simp] theorem State.setFl_cycle (v : Byte) : (s.setFl v).cycle = s.cycle := rfl
@[simp] theorem State.setFl_reg (v : Byte) (r : RegIdx) : (s.setFl v).reg r = s.reg r := rfl
@[simp] theorem State.setFl_readByte (v : Byte) (x : Byte) : (s.setFl v).readByte x = s.readByte x := rfl

/-! ### setIe -/

@[simp] theorem State.setIe_regs (b : Bool) : (s.setIe b).regs = s.regs := rfl
@[simp] theorem State.setIe_pc (b : Bool) : (s.setIe b).pc = s.pc := rfl
@[simp] theorem State.setIe_fl (b : Bool) : (s.setIe b).fl = s.fl := rfl
@[simp] theorem State.setIe_ie (b : Bool) : (s.setIe b).ie = b := rfl
@[simp] theorem State.setIe_ltf (b : Bool) : (s.setIe b).ltf = s.ltf := rfl
@[simp] theorem State.setIe_run (b : Bool) : (s.setIe b).run = s.run := rfl
@[simp] theorem State.setIe_out (b : Bool) : (s.setIe b).out = s.out := rfl
@[simp] theorem State.setIe_mem (b : Bool) : (s.setIe b).mem = s.mem := rfl
@[simp] theorem State.setIe_inputs (b : Bool) : (s.setIe b).inputs = s.inputs := rfl
@[simp] theorem State.setIe_cycle (b : Bool) : (s.setIe b).cycle = s.cycle := rfl
@[simp] theorem State.setIe_reg (b : Bool) (r : RegIdx) : (s.setIe b).reg r = s.reg r := rfl
@[simp] theorem State.setIe_readByte (b : Bool) (x : Byte) : (s.setIe b).readByte x = s.readByte x := rfl

/-! ### setLtf -/

@[simp] theorem State.setLtf_regs (n : Time) : (s.setLtf n).regs = s.regs := rfl
@[simp] theorem State.setLtf_pc (n : Time) : (s.setLtf n).pc = s.pc := rfl
@[simp] theorem State.setLtf_fl (n : Time) : (s.setLtf n).fl = s.fl := rfl
@[simp] theorem State.setLtf_ie (n : Time) : (s.setLtf n).ie = s.ie := rfl
@[simp] theorem State.setLtf_ltf (n : Time) : (s.setLtf n).ltf = n := rfl
@[simp] theorem State.setLtf_run (n : Time) : (s.setLtf n).run = s.run := rfl
@[simp] theorem State.setLtf_out (n : Time) : (s.setLtf n).out = s.out := rfl
@[simp] theorem State.setLtf_mem (n : Time) : (s.setLtf n).mem = s.mem := rfl
@[simp] theorem State.setLtf_inputs (n : Time) : (s.setLtf n).inputs = s.inputs := rfl
@[simp] theorem State.setLtf_cycle (n : Time) : (s.setLtf n).cycle = s.cycle := rfl
@[simp] theorem State.setLtf_reg (n : Time) (r : RegIdx) : (s.setLtf n).reg r = s.reg r := rfl
@[simp] theorem State.setLtf_readByte (n : Time) (x : Byte) : (s.setLtf n).readByte x = s.readByte x := rfl

/-! ### writeByte -/

@[simp] theorem State.writeByte_regs (a v : Byte) : (s.writeByte a v).regs = s.regs := rfl
@[simp] theorem State.writeByte_pc (a v : Byte) : (s.writeByte a v).pc = s.pc := rfl
@[simp] theorem State.writeByte_fl (a v : Byte) : (s.writeByte a v).fl = s.fl := rfl
@[simp] theorem State.writeByte_ie (a v : Byte) : (s.writeByte a v).ie = s.ie := rfl
@[simp] theorem State.writeByte_ltf (a v : Byte) : (s.writeByte a v).ltf = s.ltf := rfl
@[simp] theorem State.writeByte_run (a v : Byte) : (s.writeByte a v).run = s.run := rfl
@[simp] theorem State.writeByte_out (a v : Byte) : (s.writeByte a v).out = s.out := rfl
@[simp] theorem State.writeByte_mem (a v : Byte) : (s.writeByte a v).mem = memWrite s.mem a v := rfl
@[simp] theorem State.writeByte_inputs (a v : Byte) : (s.writeByte a v).inputs = s.inputs := rfl
@[simp] theorem State.writeByte_cycle (a v : Byte) : (s.writeByte a v).cycle = s.cycle := rfl
@[simp] theorem State.writeByte_reg (a v : Byte) (r : RegIdx) : (s.writeByte a v).reg r = s.reg r := rfl

/-! ### emit -/

@[simp] theorem State.emit_regs (e : Event) : (s.emit e).regs = s.regs := rfl
@[simp] theorem State.emit_pc (e : Event) : (s.emit e).pc = s.pc := rfl
@[simp] theorem State.emit_fl (e : Event) : (s.emit e).fl = s.fl := rfl
@[simp] theorem State.emit_ie (e : Event) : (s.emit e).ie = s.ie := rfl
@[simp] theorem State.emit_ltf (e : Event) : (s.emit e).ltf = s.ltf := rfl
@[simp] theorem State.emit_run (e : Event) : (s.emit e).run = s.run := rfl
@[simp] theorem State.emit_out (e : Event) : (s.emit e).out = s.out ++ [e] := rfl
@[simp] theorem State.emit_mem (e : Event) : (s.emit e).mem = s.mem := rfl
@[simp] theorem State.emit_inputs (e : Event) : (s.emit e).inputs = s.inputs := rfl
@[simp] theorem State.emit_cycle (e : Event) : (s.emit e).cycle = s.cycle := rfl
@[simp] theorem State.emit_reg (e : Event) (r : RegIdx) : (s.emit e).reg r = s.reg r := rfl
@[simp] theorem State.emit_readByte (e : Event) (x : Byte) : (s.emit e).readByte x = s.readByte x := rfl

/-! ### stop -/

@[simp] theorem State.stop_regs (n : Fin 2) (c : Cause) : (s.stop n c).regs = s.regs := rfl
@[simp] theorem State.stop_pc (n : Fin 2) (c : Cause) : (s.stop n c).pc = s.pc := rfl
@[simp] theorem State.stop_fl (n : Fin 2) (c : Cause) : (s.stop n c).fl = s.fl := rfl
@[simp] theorem State.stop_ie (n : Fin 2) (c : Cause) : (s.stop n c).ie = s.ie := rfl
@[simp] theorem State.stop_ltf (n : Fin 2) (c : Cause) : (s.stop n c).ltf = s.ltf := rfl
@[simp] theorem State.stop_run (n : Fin 2) (c : Cause) : (s.stop n c).run = .stopped n c := rfl
@[simp] theorem State.stop_out (n : Fin 2) (c : Cause) : (s.stop n c).out = s.out := rfl
@[simp] theorem State.stop_mem (n : Fin 2) (c : Cause) : (s.stop n c).mem = s.mem := rfl
@[simp] theorem State.stop_inputs (n : Fin 2) (c : Cause) : (s.stop n c).inputs = s.inputs := rfl
@[simp] theorem State.stop_cycle (n : Fin 2) (c : Cause) : (s.stop n c).cycle = s.cycle := rfl
@[simp] theorem State.stop_reg (n : Fin 2) (c : Cause) (r : RegIdx) : (s.stop n c).reg r = s.reg r := rfl
@[simp] theorem State.stop_readByte (n : Fin 2) (c : Cause) (x : Byte) : (s.stop n c).readByte x = s.readByte x := rfl

/-! ### halt -/

@[simp] theorem State.halt_regs : s.halt.regs = s.regs := rfl
@[simp] theorem State.halt_pc : s.halt.pc = s.pc := rfl
@[simp] theorem State.halt_fl : s.halt.fl = s.fl := rfl
@[simp] theorem State.halt_ie : s.halt.ie = s.ie := rfl
@[simp] theorem State.halt_ltf : s.halt.ltf = s.ltf := rfl
@[simp] theorem State.halt_run : s.halt.run = .stopped 0 .halt := rfl
@[simp] theorem State.halt_out : s.halt.out = s.out := rfl
@[simp] theorem State.halt_mem : s.halt.mem = s.mem := rfl
@[simp] theorem State.halt_inputs : s.halt.inputs = s.inputs := rfl
@[simp] theorem State.halt_cycle : s.halt.cycle = s.cycle := rfl
@[simp] theorem State.halt_reg (r : RegIdx) : s.halt.reg r = s.reg r := rfl
@[simp] theorem State.halt_readByte (x : Byte) : s.halt.readByte x = s.readByte x := rfl

/-! ### raise -/

@[simp] theorem State.raise_regs (c : Cause) : (s.raise c).regs = s.regs := rfl
@[simp] theorem State.raise_pc (c : Cause) : (s.raise c).pc = s.pc := rfl
@[simp] theorem State.raise_fl (c : Cause) : (s.raise c).fl = s.fl := rfl
@[simp] theorem State.raise_ie (c : Cause) : (s.raise c).ie = s.ie := rfl
@[simp] theorem State.raise_ltf (c : Cause) : (s.raise c).ltf = s.ltf := rfl
@[simp] theorem State.raise_run (c : Cause) : (s.raise c).run = .stopped 1 c := rfl
@[simp] theorem State.raise_out (c : Cause) : (s.raise c).out = s.out ++ [.report c] := rfl
@[simp] theorem State.raise_mem (c : Cause) : (s.raise c).mem = s.mem := rfl
@[simp] theorem State.raise_inputs (c : Cause) : (s.raise c).inputs = s.inputs := rfl
@[simp] theorem State.raise_cycle (c : Cause) : (s.raise c).cycle = s.cycle := rfl
@[simp] theorem State.raise_reg (c : Cause) (r : RegIdx) : (s.raise c).reg r = s.reg r := rfl
@[simp] theorem State.raise_readByte (c : Cause) (x : Byte) : (s.raise c).readByte x = s.readByte x := rfl

/-! ### putIs -/

@[simp] theorem State.putIs_regs (i : Line) (b : Bool) : (s.putIs i b).regs = s.regs.set Config.isReg (putBit (s.reg Config.isReg) i b) := rfl
@[simp] theorem State.putIs_pc (i : Line) (b : Bool) : (s.putIs i b).pc = s.pc := rfl
@[simp] theorem State.putIs_fl (i : Line) (b : Bool) : (s.putIs i b).fl = s.fl := rfl
@[simp] theorem State.putIs_ie (i : Line) (b : Bool) : (s.putIs i b).ie = s.ie := rfl
@[simp] theorem State.putIs_ltf (i : Line) (b : Bool) : (s.putIs i b).ltf = s.ltf := rfl
@[simp] theorem State.putIs_run (i : Line) (b : Bool) : (s.putIs i b).run = s.run := rfl
@[simp] theorem State.putIs_out (i : Line) (b : Bool) : (s.putIs i b).out = s.out := rfl
@[simp] theorem State.putIs_mem (i : Line) (b : Bool) : (s.putIs i b).mem = s.mem := rfl
@[simp] theorem State.putIs_inputs (i : Line) (b : Bool) : (s.putIs i b).inputs = s.inputs := rfl
@[simp] theorem State.putIs_cycle (i : Line) (b : Bool) : (s.putIs i b).cycle = s.cycle := rfl
@[simp] theorem State.putIs_readByte (i : Line) (b : Bool) (x : Byte) : (s.putIs i b).readByte x = s.readByte x := rfl

/-! ### dropTop -/

@[simp] theorem State.dropTop_regs : s.dropTop.regs = s.regs.set Config.spReg (s.reg Config.spReg + 1) := rfl
@[simp] theorem State.dropTop_pc : s.dropTop.pc = s.pc := rfl
@[simp] theorem State.dropTop_fl : s.dropTop.fl = s.fl := rfl
@[simp] theorem State.dropTop_ie : s.dropTop.ie = s.ie := rfl
@[simp] theorem State.dropTop_ltf : s.dropTop.ltf = s.ltf := rfl
@[simp] theorem State.dropTop_run : s.dropTop.run = s.run := rfl
@[simp] theorem State.dropTop_out : s.dropTop.out = s.out := rfl
@[simp] theorem State.dropTop_mem : s.dropTop.mem = s.mem := rfl
@[simp] theorem State.dropTop_inputs : s.dropTop.inputs = s.inputs := rfl
@[simp] theorem State.dropTop_cycle : s.dropTop.cycle = s.cycle := rfl
@[simp] theorem State.dropTop_readByte (x : Byte) : s.dropTop.readByte x = s.readByte x := rfl

/-! ### push -/

@[simp] theorem State.push_regs (v : Byte) : (s.push v).regs = s.regs.set Config.spReg (s.reg Config.spReg - 1) := rfl
@[simp] theorem State.push_pc (v : Byte) : (s.push v).pc = s.pc := rfl
@[simp] theorem State.push_fl (v : Byte) : (s.push v).fl = s.fl := rfl
@[simp] theorem State.push_ie (v : Byte) : (s.push v).ie = s.ie := rfl
@[simp] theorem State.push_ltf (v : Byte) : (s.push v).ltf = s.ltf := rfl
@[simp] theorem State.push_run (v : Byte) : (s.push v).run = s.run := rfl
@[simp] theorem State.push_out (v : Byte) : (s.push v).out = s.out := rfl
@[simp] theorem State.push_mem (v : Byte) : (s.push v).mem = memWrite s.mem (s.reg Config.spReg - 1) v := rfl
@[simp] theorem State.push_inputs (v : Byte) : (s.push v).inputs = s.inputs := rfl
@[simp] theorem State.push_cycle (v : Byte) : (s.push v).cycle = s.cycle := rfl

/-! ### consumeInput -/

@[simp] theorem State.consumeInput_regs : s.consumeInput.regs = s.regs := rfl
@[simp] theorem State.consumeInput_pc : s.consumeInput.pc = s.pc := rfl
@[simp] theorem State.consumeInput_fl : s.consumeInput.fl = s.fl := rfl
@[simp] theorem State.consumeInput_ie : s.consumeInput.ie = s.ie := rfl
@[simp] theorem State.consumeInput_ltf : s.consumeInput.ltf = s.ltf := rfl
@[simp] theorem State.consumeInput_run : s.consumeInput.run = s.run := rfl
@[simp] theorem State.consumeInput_out : s.consumeInput.out = s.out := rfl
@[simp] theorem State.consumeInput_mem : s.consumeInput.mem = s.mem := rfl
@[simp] theorem State.consumeInput_inputs : s.consumeInput.inputs = s.inputs.tail := rfl
@[simp] theorem State.consumeInput_cycle : s.consumeInput.cycle = s.cycle + 1 := rfl
@[simp] theorem State.consumeInput_reg (r : RegIdx) : s.consumeInput.reg r = s.reg r := rfl
@[simp] theorem State.consumeInput_readByte (x : Byte) : s.consumeInput.readByte x = s.readByte x := rfl

/-! ### The numbers of the special registers -/

theorem imReg_eq : Config.imReg = 5 := rfl
theorem isReg_eq : Config.isReg = 6 := rfl
theorem spReg_eq : Config.spReg = 7 := rfl
theorem keyBuf_eq : Config.keyBuf = 0xF4 := rfl

/-! ### Reading a register after writing one -/

@[simp] theorem State.reg_setReg (i r : RegIdx) (v : Byte) :
    (s.setReg i v).reg r = if r = i then v else s.reg r := by
  by_cases h : r = i
  · subst h; simp [State.reg, State.setReg]
  · have hv : i.val ≠ r.val := fun e => h (Fin.ext e.symm)
    simp [State.reg, State.setReg, h, hv]

@[simp] theorem State.reg_putIs (i : Line) (b : Bool) (r : RegIdx) :
    (s.putIs i b).reg r = if r = Config.isReg then putBit (s.reg Config.isReg) i b else s.reg r :=
  s.reg_setReg _ _ _

@[simp] theorem State.reg_dropTop (r : RegIdx) :
    s.dropTop.reg r = if r = Config.spReg then s.reg Config.spReg + 1 else s.reg r := s.reg_setReg _ _ _

@[simp] theorem State.reg_push (v : Byte) (r : RegIdx) :
    (s.push v).reg r = if r = Config.spReg then s.reg Config.spReg - 1 else s.reg r := s.reg_setReg _ _ _

/-- Two register files are equal when every register is. -/
theorem State.regs_ext {s t : State} (h : ∀ r, s.reg r = t.reg r) : s.regs = t.regs := by
  apply Vector.ext
  intro i hi
  exact h ⟨i, hi⟩

end Sys2Proof.Machine
end

