-- ==== Sys2Proof/Laws/Memory.lean ====
section
/-! SUPPORT. The laws of memory (spec/20_memory.md R31, R38): a read gives the most recent write to that address, a write
leaves every other cell alone, and every write keeps the canonical form. -/

namespace Sys2Proof.Machine

/-! ### Read after write -/

theorem memRead_filter_ne (m : Memory) (a b : Byte) :
    memRead (m.filter fun c => c.1 != a.toNat) b = if b = a then Config.memFill else memRead m b := by
  induction m with
  | nil => simp [memRead]
  | cons c m ih =>
    by_cases hc : c.1 = a.toNat
    · by_cases hb : b = a
      · subst hb; simpa [hc] using ih
      · have : a.toNat ≠ b.toNat := fun h => hb (BitVec.eq_of_toNat_eq h.symm)
        simpa [hc, hb, memRead, this] using ih
    · by_cases hb : b = a
      · subst hb; simpa [hc, memRead] using ih
      · simp only [hb, if_false] at ih
        simp [hc, hb, memRead, ih]

theorem memRead_insertCell (m : Memory) (a b v : Byte) (h : ∀ c ∈ m, c.1 ≠ a.toNat) :
    memRead (insertCell (a.toNat, v) m) b = if b = a then v else memRead m b := by
  induction m with
  | nil =>
    by_cases hb : b = a
    · subst hb; simp [insertCell, memRead]
    · have : a.toNat ≠ b.toNat := fun h => hb (BitVec.eq_of_toNat_eq h.symm)
      simp [insertCell, memRead, hb, this]
  | cons d m ih =>
    have hd : d.1 ≠ a.toNat := h d (by simp)
    have hm := ih fun c hc => h c (by simp [hc])
    by_cases hb : b = a
    · subst hb
      simp only [if_true] at hm ⊢
      by_cases hlt : b.toNat < d.1
      · simp [insertCell, hlt, memRead]
      · simp [insertCell, hlt, memRead, hd, hm]
    · have hne : a.toNat ≠ b.toNat := fun h => hb (BitVec.eq_of_toNat_eq h.symm)
      simp only [hb, if_false] at hm ⊢
      by_cases hlt : a.toNat < d.1
      · simp [insertCell, hlt, memRead, hne]
      · simp [insertCell, hlt, memRead, hm]

/-- The law of the memory array (R31, R38). -/
theorem memRead_memWrite (m : Memory) (a b v : Byte) :
    memRead (memWrite m a v) b = if b = a then v else memRead m b := by
  unfold memWrite
  by_cases hv : v = Config.memFill
  · subst hv; simpa using memRead_filter_ne m a b
  · simp only [hv, if_false]
    rw [memRead_insertCell _ _ _ _ (by simp), memRead_filter_ne]
    by_cases hb : b = a <;> simp [hb]

@[simp] theorem State.readByte_writeByte (s : State) (a b v : Byte) :
    (s.writeByte a v).readByte b = if b = a then v else s.readByte b := memRead_memWrite _ _ _ _

@[simp] theorem State.readByte_push (s : State) (b v : Byte) :
    (s.push v).readByte b = if b = s.reg Config.spReg - 1 then v else s.readByte b := memRead_memWrite _ _ _ _

/-! ### The canonical form -/

theorem Memory.wf_iff (m : Memory) :
    Memory.wf m = true ↔ m.Pairwise (fun c d => c.1 < d.1) ∧ ∀ c ∈ m, c.1 < 256 ∧ c.2 ≠ Config.memFill := by
  simp [Memory.wf]

theorem Memory.wf_nil : Memory.wf [] = true := by decide

theorem mem_insertCell {c d : Host.Cell} {m : Memory} : d ∈ insertCell c m ↔ d = c ∨ d ∈ m := by
  induction m with
  | nil => simp [insertCell]
  | cons e m ih =>
    by_cases h : c.1 < e.1
    · simp [insertCell, h]
    · simp only [insertCell, h, if_false, List.mem_cons, ih]; tauto

theorem pairwise_insertCell {c : Host.Cell} {m : Memory} (h : m.Pairwise fun c d => c.1 < d.1)
    (hne : ∀ d ∈ m, d.1 ≠ c.1) : (insertCell c m).Pairwise fun c d => c.1 < d.1 := by
  induction m with
  | nil => simp [insertCell]
  | cons e m ih =>
    obtain ⟨he, hm⟩ := List.pairwise_cons.1 h
    by_cases hlt : c.1 < e.1
    · simp only [insertCell, hlt, if_true, List.pairwise_cons, List.mem_cons, forall_eq_or_imp]
      exact ⟨⟨trivial, fun d hd => lt_trans hlt (he d hd)⟩, he, hm⟩
    · simp only [insertCell, hlt, if_false, List.pairwise_cons]
      refine ⟨fun d hd => ?_, ih hm fun d hd => hne d (by simp [hd])⟩
      rcases mem_insertCell.1 hd with rfl | hd
      · exact lt_of_le_of_ne (not_lt.1 hlt) (hne e (by simp))
      · exact he d hd

/-- A write keeps the canonical form. -/
theorem Memory.wf_memWrite {m : Memory} (h : Memory.wf m = true) (a v : Byte) : Memory.wf (memWrite m a v) = true := by
  rw [Memory.wf_iff] at h ⊢
  obtain ⟨hp, hc⟩ := h
  have hpf : (m.filter fun c => c.1 != a.toNat).Pairwise fun c d => c.1 < d.1 := hp.filter _
  have hcf : ∀ c ∈ m.filter (fun c => c.1 != a.toNat), c.1 < 256 ∧ c.2 ≠ Config.memFill := fun c hm =>
    hc c (List.mem_filter.1 hm).1
  unfold memWrite
  by_cases hv : v = Config.memFill
  · simp only [hv, if_true]; exact ⟨hpf, hcf⟩
  · simp only [hv, if_false]
    refine ⟨pairwise_insertCell hpf (by simp), fun c hm => ?_⟩
    rcases mem_insertCell.1 hm with rfl | hm
    · exact ⟨a.isLt, hv⟩
    · exact hcf c hm

theorem State.wf_writeBytes {s : State} (h : Memory.wf s.mem = true) (a : Byte) (vs : List Byte) :
    Memory.wf (s.writeBytes a vs).mem = true := by
  induction vs generalizing s a with
  | nil => exact h
  | cons v vs ih => exact ih (Memory.wf_memWrite h a v) _

/-- What a listed cell reads as. -/
theorem memRead_of_mem {m : Memory} (h : m.Pairwise fun c d => c.1 < d.1) {c : Host.Cell} (hc : c ∈ m) {a : Byte}
    (ha : c.1 = a.toNat) : memRead m a = c.2 := by
  induction m with
  | nil => simp at hc
  | cons d m ih =>
    obtain ⟨hd, hm⟩ := List.pairwise_cons.1 h
    rcases List.mem_cons.1 hc with rfl | hc
    · simp [memRead, ha]
    · have : d.1 ≠ a.toNat := by have := hd c hc; omega
      simp [memRead, this, ih hm hc]

/-- What an unlisted address reads as. -/
theorem memRead_of_not_mem {m : Memory} {a : Byte} (h : ∀ c ∈ m, c.1 ≠ a.toNat) : memRead m a = Config.memFill := by
  induction m with
  | nil => rfl
  | cons d m ih => simp [memRead, h d (by simp), ih fun c hc => h c (by simp [hc])]

/-- In the canonical form, memories that read the same are equal data. -/
theorem Memory.ext_of_wf {m n : Memory} (hm : Memory.wf m = true) (hn : Memory.wf n = true)
    (h : ∀ a, memRead m a = memRead n a) : m = n := by
  rw [Memory.wf_iff] at hm hn
  have sub : ∀ {m n : Memory}, m.Pairwise (fun c d => c.1 < d.1) → (∀ c ∈ m, c.1 < 256 ∧ c.2 ≠ Config.memFill) →
      n.Pairwise (fun c d => c.1 < d.1) → (∀ a, memRead m a = memRead n a) → ∀ c ∈ m, c ∈ n := by
    intro m n hp hc hpn h c hcm
    have hlt := (hc c hcm).1
    have ha : c.1 = (BitVec.ofNat 8 c.1).toNat := by simp [Nat.mod_eq_of_lt hlt]
    have hr := h (BitVec.ofNat 8 c.1)
    rw [memRead_of_mem hp hcm ha] at hr
    by_contra hcn
    by_cases hex : ∃ d ∈ n, d.1 = c.1
    · obtain ⟨d, hd, hdc⟩ := hex
      rw [memRead_of_mem hpn hd (hdc.trans ha)] at hr
      exact hcn (by rw [show c = d from Prod.ext hdc.symm hr]; exact hd)
    · rw [memRead_of_not_mem fun d hd e => hex ⟨d, hd, e.trans ha.symm⟩] at hr
      exact (hc c hcm).2 hr
  have irr : ∀ {m : Memory}, m.Pairwise (fun c d => c.1 < d.1) → m.Nodup := fun hp =>
    hp.imp fun hlt e => absurd (congrArg Prod.fst e) (Nat.ne_of_lt hlt)
  refine List.Perm.eq_of_pairwise (le := fun c d => c.1 < d.1) ?_ hm.1 hn.1 ?_
  · intro a b _ _ hab hba; omega
  · exact (List.perm_ext_iff_of_nodup (irr hm.1) (irr hn.1)).2 fun c =>
      ⟨sub hm.1 hm.2 hn.1 h c, sub hn.1 hn.2 hm.1 (fun a => (h a).symm) c⟩

/-! ### Several bytes -/

/-- Storing bytes changes nothing but memory. -/
theorem State.writeBytes_frame (s : State) (a : Byte) (vs : List Byte) : s.writeBytes a vs = { s with mem := (s.writeBytes a vs).mem } := by
  induction vs generalizing s a with
  | nil => rfl
  | cons v vs ih => rw [State.writeBytes, ih]; rfl

/-- A cell outside the stored bytes is as before. -/
theorem State.readByte_writeBytes_out (s : State) (a b : Byte) (vs : List Byte) (h : ∀ k, k < vs.length → b ≠ a + BitVec.ofNat 8 k) : (s.writeBytes a vs).readByte b = s.readByte b := by
  induction vs generalizing s a with
  | nil => rfl
  | cons v vs ih =>
    rw [State.writeBytes, ih]
    · have := h 0 (by simp)
      simp at this
      simp [this]
    · intro k hk
      have := h (k+1) (by simpa using hk)
      rw [show a + 1 + BitVec.ofNat 8 k = a + BitVec.ofNat 8 (k+1) by bv_omega]; exact this

/-- Byte k is stored at the k-th address, as long as the bytes do not overlap. -/
theorem State.readByte_writeBytes_at (s : State) (a : Byte) (vs : List Byte) (hl : vs.length ≤ 256) (k : Nat) (hk : k < vs.length) : (s.writeBytes a vs).readByte (a + BitVec.ofNat 8 k) = vs[k] := by
  induction vs generalizing s a k with
  | nil => simp at hk
  | cons v vs ih =>
    rw [State.writeBytes]
    simp at hl hk
    cases k with
    | zero =>
      rw [State.readByte_writeBytes_out]
      · simp
      · intro k hk e; bv_omega
    | succ k =>
      rw [show a + BitVec.ofNat 8 (k+1) = a + 1 + BitVec.ofNat 8 k by bv_omega, ih _ _ (by omega) k (by omega)]; rfl

end Sys2Proof.Machine
end

