-- ==== Sys2Proof/Laws/Ops.lean ====
section
/-! SUPPORT. One lemma per shared operation that says once what it can do: the operand check, the PC advance, and the result
of a meaning over them. -/

namespace Sys2Proof.Machine

/-! ### Operands (spec R53, R74) -/

@[simp] theorem toNat_regByte (r : RegIdx) : (regByte r).toNat = r.val := by
  simp [regByte, Nat.mod_eq_of_lt (lt_trans r.isLt (by decide : 8 < 256))]

@[simp] theorem regOperand_regByte (r : RegIdx) : regOperand (regByte r) = some r := by
  simp [regOperand]

@[simp] theorem isRegByte_regByte (r : RegIdx) : isRegByte (regByte r) = true := by simp [isRegByte]

theorem regByte_inj {r q : RegIdx} : regByte r = regByte q ↔ r = q :=
  ⟨fun h => Fin.ext (by simpa using congrArg BitVec.toNat h), fun h => by rw [h]⟩

/-- A byte is a legal register operand exactly when it is `regByte` of a register. -/
theorem isRegByte_iff {b : Byte} : isRegByte b = true ↔ ∃ r, b = regByte r := by
  constructor
  · intro h
    have hb : b.toNat < 8 := by simpa [isRegByte] using h
    exact ⟨⟨b.toNat, hb⟩, BitVec.eq_of_toNat_eq (by simp)⟩
  · rintro ⟨r, rfl⟩; simp

theorem regOperand_eq_some {b : Byte} {r : RegIdx} : regOperand b = some r ↔ b = regByte r := by
  constructor
  · intro h
    unfold regOperand at h
    split at h
    · cases h; exact BitVec.eq_of_toNat_eq (by simp)
    · cases h
  · rintro rfl; simp

theorem regOperand_eq_none {b : Byte} : regOperand b = none ↔ isRegByte b = false := by
  unfold regOperand isRegByte
  split <;> simp_all

@[simp] theorem withReg_regByte (r : RegIdx) (s : State) (k : RegIdx → State) : withReg (regByte r) s k = .next (k r) := by
  simp [withReg]

@[simp] theorem withRegs_regByte (r q : RegIdx) (s : State) (k : RegIdx → RegIdx → State) :
    withRegs (regByte r) (regByte q) s k = .next (k r q) := by
  simp [withRegs]

/-- What a meaning of format R or RI can do: it runs its rule on a legal register, or stops on an illegal byte. -/
theorem withReg_cases {a : Byte} {s t : State} {k : RegIdx → State} (h : withReg a s k = .next t) :
    (∃ r, a = regByte r ∧ t = k r) ∨ (isRegByte a = false ∧ t = s.raise (.bounds .regindex)) := by
  unfold withReg at h
  split at h
  · next r hr => exact .inl ⟨r, regOperand_eq_some.1 hr, by cases h; rfl⟩
  · next hn => exact .inr ⟨regOperand_eq_none.1 hn, by cases h; rfl⟩

/-- What a meaning of format RR can do. -/
theorem withRegs_cases {a b : Byte} {s t : State} {k : RegIdx → RegIdx → State} (h : withRegs a b s k = .next t) :
    (∃ r q, a = regByte r ∧ b = regByte q ∧ t = k r q) ∨
      ((isRegByte a = false ∨ isRegByte b = false) ∧ t = s.raise (.bounds .regindex)) := by
  unfold withRegs at h
  split at h
  · next r q hr hq =>
    exact .inl ⟨r, q, regOperand_eq_some.1 hr, regOperand_eq_some.1 hq, by cases h; rfl⟩
  · next hn => exact .inr ⟨.inl (regOperand_eq_none.1 hn), by cases h; rfl⟩
  · next hn => exact .inr ⟨.inr (regOperand_eq_none.1 hn), by cases h; rfl⟩

theorem withReg_bad {a : Byte} (h : isRegByte a = false) (s : State) (k : RegIdx → State) :
    withReg a s k = .next (s.raise (.bounds .regindex)) := by
  simp [withReg, regOperand_eq_none.2 h]

theorem withRegs_bad {a b : Byte} (h : isRegByte a = false ∨ isRegByte b = false) (s : State)
    (k : RegIdx → RegIdx → State) : withRegs a b s k = .next (s.raise (.bounds .regindex)) := by
  unfold withRegs
  rcases h with h | h
  · simp [regOperand_eq_none.2 h]
  · rw [regOperand_eq_none.2 h]; cases regOperand a <;> rfl

/-! ### The PC advance (spec R75, R76) -/

theorem State.advance_of_le {s : State} {n : Nat} (h : s.pc.toNat + n ≤ 255) :
    s.advance n = s.setPc (s.pc + BitVec.ofNat 8 n) := by simp [State.advance, h]

theorem State.advance_of_gt {s : State} {n : Nat} (h : 255 < s.pc.toNat + n) :
    s.advance n = s.raise (.bounds .pcoverflow) := by simp [State.advance, h]

/-- Where the advance goes. -/
theorem toNat_add_ofNat {a : Byte} {n : Nat} (h : a.toNat + n ≤ 255) : (a + BitVec.ofNat 8 n).toNat = a.toNat + n := by
  rw [BitVec.toNat_add, BitVec.toNat_ofNat]; omega

/-- What the advance can do: move pc, or stop and keep everything. -/
theorem State.advance_cases (s : State) (n : Nat) :
    (s.pc.toNat + n ≤ 255 ∧ s.advance n = s.setPc (s.pc + BitVec.ofNat 8 n)) ∨
      (255 < s.pc.toNat + n ∧ s.advance n = s.raise (.bounds .pcoverflow)) := by
  rcases Nat.lt_or_ge 255 (s.pc.toNat + n) with h | h
  · exact .inr ⟨h, s.advance_of_gt h⟩
  · exact .inl ⟨h, s.advance_of_le h⟩

@[simp] theorem State.advance_regs (s : State) (n : Nat) : (s.advance n).regs = s.regs := by
  unfold State.advance; split <;> rfl
@[simp] theorem State.advance_fl (s : State) (n : Nat) : (s.advance n).fl = s.fl := by
  unfold State.advance; split <;> rfl
@[simp] theorem State.advance_ie (s : State) (n : Nat) : (s.advance n).ie = s.ie := by
  unfold State.advance; split <;> rfl
@[simp] theorem State.advance_ltf (s : State) (n : Nat) : (s.advance n).ltf = s.ltf := by
  unfold State.advance; split <;> rfl
@[simp] theorem State.advance_mem (s : State) (n : Nat) : (s.advance n).mem = s.mem := by
  unfold State.advance; split <;> rfl
@[simp] theorem State.advance_inputs (s : State) (n : Nat) : (s.advance n).inputs = s.inputs := by
  unfold State.advance; split <;> rfl
@[simp] theorem State.advance_cycle (s : State) (n : Nat) : (s.advance n).cycle = s.cycle := by
  unfold State.advance; split <;> rfl
@[simp] theorem State.advance_reg (s : State) (n : Nat) (r : RegIdx) : (s.advance n).reg r = s.reg r := by
  unfold State.advance; split <;> rfl
@[simp] theorem State.advance_readByte (s : State) (n : Nat) (a : Byte) : (s.advance n).readByte a = s.readByte a := by
  unfold State.advance; split <;> rfl

/-! Where the advance goes, when it does not overflow. -/

theorem State.advance_pc_of_le {s : State} {n : Nat} (h : s.pc.toNat + n ≤ 255) : (s.advance n).pc.toNat = s.pc.toNat + n := by
  rw [State.advance_of_le h]; exact toNat_add_ofNat h
theorem State.advance_out_of_le {s : State} {n : Nat} (h : s.pc.toNat + n ≤ 255) : (s.advance n).out = s.out := by
  rw [State.advance_of_le h]; rfl
theorem State.advance_run_of_le {s : State} {n : Nat} (h : s.pc.toNat + n ≤ 255) : (s.advance n).run = s.run := by
  rw [State.advance_of_le h]; rfl

/-! ### Single bits -/

/-- Writing one bit of a byte. -/
theorem getLsbD_putBit (v : Byte) (i k : Fin 8) (b : Bool) :
    (putBit v i b).getLsbD k = if k = i then b else v.getLsbD k := by
  have hk := k.isLt
  have hi := i.isLt
  by_cases h : k = i
  · subst h; cases b <;> simp [putBit]
  · have hne : k.val ≠ i.val := fun e => h (Fin.ext e)
    cases b <;>
      simp [putBit, h, hk] <;> omega

end Sys2Proof.Machine
end

