-- ==== Sys2Proof/Laws/Interrupts.lean ====
section
/-! SUPPORT. What the shared operations of the interrupt controller do: the priority choice, pushing and popping several
bytes, and the polls (spec R179 to R183, R160). -/

namespace Sys2Proof.Machine

/-! ### Priority (spec R182) -/

theorem lowestLine_eq_some {m : Byte} {i : Line} :
    lowestLine m = some i ↔ m.getLsbD i = true ∧ ∀ j : Line, j < i → m.getLsbD j = false := by
  simp only [lowestLine, List.find?_eq_some_iff_getElem]
  constructor
  · rintro ⟨hi, n, hn, he, hlt⟩
    have hni : n = i.val := by rw [← he]; simp
    refine ⟨hi, fun j hj => ?_⟩
    have := hlt j.val (by rw [hni]; exact hj)
    simpa using this
  · rintro ⟨hi, hlt⟩
    refine ⟨hi, i.val, by simp, by simp, fun n hn => ?_⟩
    have hn8 : n < 8 := lt_trans hn i.isLt
    simpa using hlt ⟨n, hn8⟩ hn

theorem lowestLine_eq_none {m : Byte} : lowestLine m = none ↔ m = 0 := by
  simp only [lowestLine, List.find?_eq_none, List.mem_finRange, forall_const, Bool.not_eq_true]
  constructor
  · intro h
    apply BitVec.eq_of_getLsbD_eq
    intro k hk
    simpa using h ⟨k, hk⟩
  · rintro rfl i; simp

/-! ### Several pushes and pops -/

@[simp] theorem State.pushAll_nil (s : State) : s.pushAll [] = s := rfl
@[simp] theorem State.pushAll_cons (s : State) (v : Byte) (vs : List Byte) : s.pushAll (v :: vs) = (s.push v).pushAll vs := rfl

/-- Pushes change only `x[7]` and memory. -/
theorem State.pushAll_frame (s : State) (vs : List Byte) :
    (s.pushAll vs) = { s with regs := (s.pushAll vs).regs, mem := (s.pushAll vs).mem } := by
  induction vs generalizing s with
  | nil => rfl
  | cons v vs ih => rw [State.pushAll_cons, ih]; rfl

@[simp] theorem State.pushAll_pc (s : State) (vs : List Byte) : (s.pushAll vs).pc = s.pc :=
  (congrArg State.pc (s.pushAll_frame vs) :)
@[simp] theorem State.pushAll_fl (s : State) (vs : List Byte) : (s.pushAll vs).fl = s.fl :=
  (congrArg State.fl (s.pushAll_frame vs) :)
@[simp] theorem State.pushAll_ie (s : State) (vs : List Byte) : (s.pushAll vs).ie = s.ie :=
  (congrArg State.ie (s.pushAll_frame vs) :)
@[simp] theorem State.pushAll_ltf (s : State) (vs : List Byte) : (s.pushAll vs).ltf = s.ltf :=
  (congrArg State.ltf (s.pushAll_frame vs) :)
@[simp] theorem State.pushAll_run (s : State) (vs : List Byte) : (s.pushAll vs).run = s.run :=
  (congrArg State.run (s.pushAll_frame vs) :)
@[simp] theorem State.pushAll_out (s : State) (vs : List Byte) : (s.pushAll vs).out = s.out :=
  (congrArg State.out (s.pushAll_frame vs) :)
@[simp] theorem State.pushAll_inputs (s : State) (vs : List Byte) : (s.pushAll vs).inputs = s.inputs :=
  (congrArg State.inputs (s.pushAll_frame vs) :)
@[simp] theorem State.pushAll_cycle (s : State) (vs : List Byte) : (s.pushAll vs).cycle = s.cycle :=
  (congrArg State.cycle (s.pushAll_frame vs) :)

theorem State.pushAll_reg (s : State) (vs : List Byte) (r : RegIdx) :
    (s.pushAll vs).reg r = if r = Config.spReg then s.reg Config.spReg - BitVec.ofNat 8 vs.length else s.reg r := by
  induction vs generalizing s with
  | nil => by_cases h : r = Config.spReg <;> simp [h]
  | cons v vs ih =>
    rw [State.pushAll_cons, ih]
    by_cases h : r = Config.spReg
    · simp only [h, if_true, State.reg_push, List.length_cons]
      bv_omega
    · simp [h]

@[simp] theorem State.popReg_reg (s : State) (i r : RegIdx) :
    (s.popReg i).reg r = if r = i then s.top else if r = Config.spReg then s.reg Config.spReg + 1 else s.reg r := by
  simp [State.popReg]

@[simp] theorem State.popReg_pc (s : State) (i : RegIdx) : (s.popReg i).pc = s.pc := rfl
@[simp] theorem State.popReg_fl (s : State) (i : RegIdx) : (s.popReg i).fl = s.fl := rfl
@[simp] theorem State.popReg_ie (s : State) (i : RegIdx) : (s.popReg i).ie = s.ie := rfl
@[simp] theorem State.popReg_ltf (s : State) (i : RegIdx) : (s.popReg i).ltf = s.ltf := rfl
@[simp] theorem State.popReg_run (s : State) (i : RegIdx) : (s.popReg i).run = s.run := rfl
@[simp] theorem State.popReg_out (s : State) (i : RegIdx) : (s.popReg i).out = s.out := rfl
@[simp] theorem State.popReg_mem (s : State) (i : RegIdx) : (s.popReg i).mem = s.mem := rfl
@[simp] theorem State.popReg_inputs (s : State) (i : RegIdx) : (s.popReg i).inputs = s.inputs := rfl
@[simp] theorem State.popReg_cycle (s : State) (i : RegIdx) : (s.popReg i).cycle = s.cycle := rfl
@[simp] theorem State.popReg_readByte (s : State) (i : RegIdx) (a : Byte) : (s.popReg i).readByte a = s.readByte a := rfl

/-! The pushed bytes: byte k is at `SP - (k + 1)`, and no other cell changes. -/

theorem State.pushAll_readByte_out (s : State) (vs : List Byte) (a : Byte)
    (h : ∀ k, k < vs.length → a ≠ s.reg Config.spReg - BitVec.ofNat 8 (k + 1)) : (s.pushAll vs).readByte a = s.readByte a := by
  induction vs generalizing s with
  | nil => rfl
  | cons v vs ih =>
    have h0 : a ≠ s.reg Config.spReg - 1 := h 0 (by simp)
    rw [State.pushAll_cons, ih, State.readByte_push, if_neg h0]
    intro k hk e
    refine h (k + 1) (by simpa using hk) (e.trans ?_)
    rw [State.reg_push, if_pos rfl]
    bv_omega

theorem State.pushAll_readByte_at (s : State) (vs : List Byte) (k : Nat) (hk : k < vs.length) (hl : vs.length ≤ 256) :
    (s.pushAll vs).readByte (s.reg Config.spReg - BitVec.ofNat 8 (k + 1)) = vs[k] := by
  induction vs generalizing s k with
  | nil => simp at hk
  | cons v vs ih =>
    rw [State.pushAll_cons]
    rw [List.length_cons] at hk hl
    cases k with
    | zero =>
      rw [State.pushAll_readByte_out, State.readByte_push]; · exact if_pos rfl
      intro k hk2 e
      rw [State.reg_push, if_pos rfl] at e
      bv_omega
    | succ k =>
      have e : s.reg Config.spReg - BitVec.ofNat 8 (k + 1 + 1) = (s.push v).reg Config.spReg - BitVec.ofNat 8 (k + 1) := by
        rw [State.reg_push, if_pos rfl]; bv_omega
      rw [e, ih _ _ (by omega) (by omega)]; rfl

/-! Popping into a list of registers, none of them SP and none twice: register k takes the byte at `SP + k`. -/

theorem State.popRegs_readByte (s : State) (rs : List RegIdx) (a : Byte) : (rs.foldl State.popReg s).readByte a = s.readByte a := by
  induction rs generalizing s with
  | nil => rfl
  | cons r rs ih => rw [List.foldl_cons, ih, State.popReg_readByte]

theorem State.popRegs_sp (s : State) (rs : List RegIdx) (h : Config.spReg ∉ rs) :
    (rs.foldl State.popReg s).reg Config.spReg = s.reg Config.spReg + BitVec.ofNat 8 rs.length := by
  induction rs generalizing s with
  | nil => simp
  | cons r rs ih =>
    rw [List.mem_cons, not_or] at h
    rw [List.foldl_cons, ih _ h.2, State.popReg_reg, if_neg h.1, if_pos rfl, List.length_cons]
    bv_omega

theorem State.popRegs_other (s : State) (rs : List RegIdx) (r : RegIdx) (hr : r ∉ rs) (h7 : r ≠ Config.spReg) :
    (rs.foldl State.popReg s).reg r = s.reg r := by
  induction rs generalizing s with
  | nil => rfl
  | cons q rs ih =>
    rw [List.mem_cons, not_or] at hr
    rw [List.foldl_cons, ih _ hr.2, State.popReg_reg, if_neg hr.1, if_neg h7]

theorem State.popRegs_at (s : State) (rs : List RegIdx) (h : Config.spReg ∉ rs) (hn : rs.Nodup) (k : Nat) (hk : k < rs.length) :
    (rs.foldl State.popReg s).reg rs[k] = s.readByte (s.reg Config.spReg + BitVec.ofNat 8 k) := by
  induction rs generalizing s k with
  | nil => simp at hk
  | cons r rs ih =>
    rw [List.mem_cons, not_or] at h
    rw [List.nodup_cons] at hn
    rw [List.foldl_cons]
    cases k with
    | zero =>
      rw [List.getElem_cons_zero, State.popRegs_other _ _ _ hn.1 (Ne.symm h.1), State.popReg_reg, if_pos rfl]
      simp [State.top]
    | succ k =>
      rw [List.getElem_cons_succ, ih _ h.2 hn.2 k (by simpa using hk), State.popReg_readByte, State.popReg_reg, if_neg h.1,
        if_pos rfl]
      congr 1
      bv_omega

/-! ### The polls change nothing but IS, LTF, the key buffer and the model's own fields -/

@[simp] theorem State.timerPoll_pc (s : State) (n : Time) : (s.timerPoll n).pc = s.pc := by
  unfold State.timerPoll; split <;> rfl
@[simp] theorem State.timerPoll_fl (s : State) (n : Time) : (s.timerPoll n).fl = s.fl := by
  unfold State.timerPoll; split <;> rfl
@[simp] theorem State.timerPoll_ie (s : State) (n : Time) : (s.timerPoll n).ie = s.ie := by
  unfold State.timerPoll; split <;> rfl
@[simp] theorem State.timerPoll_run (s : State) (n : Time) : (s.timerPoll n).run = s.run := by
  unfold State.timerPoll; split <;> rfl
@[simp] theorem State.timerPoll_out (s : State) (n : Time) : (s.timerPoll n).out = s.out := by
  unfold State.timerPoll; split <;> rfl
@[simp] theorem State.timerPoll_mem (s : State) (n : Time) : (s.timerPoll n).mem = s.mem := by
  unfold State.timerPoll; split <;> rfl
@[simp] theorem State.timerPoll_inputs (s : State) (n : Time) : (s.timerPoll n).inputs = s.inputs := by
  unfold State.timerPoll; split <;> rfl
@[simp] theorem State.timerPoll_cycle (s : State) (n : Time) : (s.timerPoll n).cycle = s.cycle := by
  unfold State.timerPoll; split <;> rfl
@[simp] theorem State.timerPoll_reg (s : State) (n : Time) (r : RegIdx) : (s.timerPoll n).reg r =
    if r = Config.isReg ∧ timerDue n s.ltf = true then putBit (s.reg Config.isReg) Config.timerLine true else s.reg r := by
  unfold State.timerPoll
  split <;> by_cases h : r = Config.isReg <;> simp_all

@[simp] theorem State.keyboardPoll_pc (s : State) (k : Option Byte) : (s.keyboardPoll k).pc = s.pc := by cases k <;> rfl
@[simp] theorem State.keyboardPoll_fl (s : State) (k : Option Byte) : (s.keyboardPoll k).fl = s.fl := by cases k <;> rfl
@[simp] theorem State.keyboardPoll_ie (s : State) (k : Option Byte) : (s.keyboardPoll k).ie = s.ie := by cases k <;> rfl
@[simp] theorem State.keyboardPoll_ltf (s : State) (k : Option Byte) : (s.keyboardPoll k).ltf = s.ltf := by cases k <;> rfl
@[simp] theorem State.keyboardPoll_run (s : State) (k : Option Byte) : (s.keyboardPoll k).run = s.run := by cases k <;> rfl
@[simp] theorem State.keyboardPoll_out (s : State) (k : Option Byte) : (s.keyboardPoll k).out = s.out := by cases k <;> rfl
@[simp] theorem State.keyboardPoll_inputs (s : State) (k : Option Byte) : (s.keyboardPoll k).inputs = s.inputs := by
  cases k <;> rfl
@[simp] theorem State.keyboardPoll_cycle (s : State) (k : Option Byte) : (s.keyboardPoll k).cycle = s.cycle := by
  cases k <;> rfl
@[simp] theorem State.keyboardPoll_reg (s : State) (k : Option Byte) (r : RegIdx) : (s.keyboardPoll k).reg r =
    if r = Config.isReg ∧ k.isSome = true then putBit (s.reg Config.isReg) Config.keyLine true else s.reg r := by
  cases k <;> by_cases h : r = Config.isReg <;> simp [State.keyboardPoll, h]

/-- What the accept step can do: nothing, or the entry of one line. -/
theorem State.interruptAccept_cases (s : State) :
    (s.acceptedLine = none ∧ s.interruptAccept = s) ∨
      ∃ i, s.acceptedLine = some i ∧ s.interruptAccept = s.enterInterrupt i := by
  unfold State.interruptAccept
  cases h : s.acceptedLine with
  | none => exact .inl ⟨rfl, rfl⟩
  | some i => exact .inr ⟨i, rfl, rfl⟩

/-! Interrupt entry changes only registers, pc, IE and memory. -/

@[simp] theorem State.enterInterrupt_ie (s : State) (i : Line) : (s.enterInterrupt i).ie = false := by
  simp [State.enterInterrupt]
@[simp] theorem State.enterInterrupt_fl (s : State) (i : Line) : (s.enterInterrupt i).fl = s.fl := by
  simp [State.enterInterrupt]
@[simp] theorem State.enterInterrupt_ltf (s : State) (i : Line) : (s.enterInterrupt i).ltf = s.ltf := by
  simp [State.enterInterrupt]
@[simp] theorem State.enterInterrupt_run (s : State) (i : Line) : (s.enterInterrupt i).run = s.run := by
  simp [State.enterInterrupt]
@[simp] theorem State.enterInterrupt_out (s : State) (i : Line) : (s.enterInterrupt i).out = s.out := by
  simp [State.enterInterrupt]
@[simp] theorem State.enterInterrupt_inputs (s : State) (i : Line) : (s.enterInterrupt i).inputs = s.inputs := by
  simp [State.enterInterrupt]
@[simp] theorem State.enterInterrupt_cycle (s : State) (i : Line) : (s.enterInterrupt i).cycle = s.cycle := by
  simp [State.enterInterrupt]

/-! IRET's operation changes only registers, FL, pc and IE. -/

@[simp] theorem State.returnFromInterrupt_ie (s : State) : s.returnFromInterrupt.ie = true := rfl
@[simp] theorem State.returnFromInterrupt_ltf (s : State) : s.returnFromInterrupt.ltf = s.ltf := by
  simp [State.returnFromInterrupt, savedRegs, State.popPc, State.popFl]
@[simp] theorem State.returnFromInterrupt_run (s : State) : s.returnFromInterrupt.run = s.run := by
  simp [State.returnFromInterrupt, savedRegs, State.popPc, State.popFl]
@[simp] theorem State.returnFromInterrupt_out (s : State) : s.returnFromInterrupt.out = s.out := by
  simp [State.returnFromInterrupt, savedRegs, State.popPc, State.popFl]
@[simp] theorem State.returnFromInterrupt_mem (s : State) : s.returnFromInterrupt.mem = s.mem := by
  simp [State.returnFromInterrupt, savedRegs, State.popPc, State.popFl]
@[simp] theorem State.returnFromInterrupt_inputs (s : State) : s.returnFromInterrupt.inputs = s.inputs := by
  simp [State.returnFromInterrupt, savedRegs, State.popPc, State.popFl]
@[simp] theorem State.returnFromInterrupt_cycle (s : State) : s.returnFromInterrupt.cycle = s.cycle := by
  simp [State.returnFromInterrupt, savedRegs, State.popPc, State.popFl]

/-- Every write of the poll keeps memory canonical. -/
theorem State.wf_pushAll {s : State} (h : Memory.wf s.mem = true) (vs : List Byte) :
    Memory.wf (s.pushAll vs).mem = true := by
  induction vs generalizing s with
  | nil => exact h
  | cons v vs ih => exact ih (Memory.wf_memWrite h _ _)

theorem State.wf_keyboardPoll {s : State} (h : Memory.wf s.mem = true) (k : Option Byte) :
    Memory.wf (s.keyboardPoll k).mem = true := by
  cases k with
  | none => exact h
  | some k => exact Memory.wf_memWrite h _ _

theorem State.wf_enterInterrupt {s : State} (h : Memory.wf s.mem = true) (i : Line) :
    Memory.wf (s.enterInterrupt i).mem = true :=
  State.wf_pushAll (s := (s.putIs i false).setIe false) h _

/-! ### What the two request latches set -/

theorem State.latchRequests_reg (s : State) (r : RegIdx) (hr : r ≠ 6) : s.latchRequests.reg r = s.reg r := by
  simp [State.latchRequests, isReg_eq, hr]

theorem State.latchRequests_is (s : State) (k : Fin 8) : (s.latchRequests.reg 6).getLsbD k =
    ((decide (k = 1) && s.nextInput.key.isSome) || (decide (k = 0) && timerDue s.nextInput.now s.ltf) || (s.reg 6).getLsbD k) := by
  simp only [State.latchRequests, State.keyboardPoll_reg, State.timerPoll_reg, isReg_eq, true_and, State.consumeInput_reg, State.consumeInput_ltf]
  cases s.nextInput.key.isSome <;> cases timerDue s.nextInput.now s.ltf <;>
    simp only [if_true, if_false, Bool.false_eq_true, getLsbD_putBit] <;> by_cases h0 : k = 0 <;> by_cases h1 : k = 1 <;> simp [h0, h1]

theorem State.timerPoll_ltf (s : State) (n : Time) : (s.timerPoll n).ltf = if timerDue n s.ltf then n else s.ltf := by
  unfold State.timerPoll; split <;> rfl

theorem State.keyboardPoll_readByte (s : State) (k : Option Byte) (a : Byte) :
    (s.keyboardPoll k).readByte a = if a = Config.keyBuf then k.getD (s.readByte a) else s.readByte a := by
  cases k <;> simp [State.keyboardPoll]

theorem State.latchRequests_ltf (s : State) :
    s.latchRequests.ltf = if timerDue s.nextInput.now s.ltf then s.nextInput.now else s.ltf := by
  rw [State.latchRequests, State.keyboardPoll_ltf, State.timerPoll_ltf]; rfl

theorem State.latchRequests_readByte (s : State) (a : Byte) : s.latchRequests.readByte a =
    if a = Config.keyBuf then s.nextInput.key.getD (s.readByte a) else s.readByte a := by
  have e : (s.consumeInput.timerPoll s.nextInput.now).readByte a = s.readByte a := by
    show memRead _ _ = memRead _ _
    rw [State.timerPoll_mem]; rfl
  rw [State.latchRequests, State.keyboardPoll_readByte, e]

/-- With no line accepted, the poll is the two request latches. -/
theorem State.poll_of_none {s : State} (h : s.latchRequests.acceptedLine = none) : s.poll = s.latchRequests := by
  simp only [State.poll, State.interruptAccept, h]

/-! ### What entry leaves, register by register and byte by byte -/

theorem State.enterInterrupt_reg (s : State) (i : Line) (r : RegIdx) : (s.enterInterrupt i).reg r =
    if r = 7 then s.reg 7 - 9 else if r = 6 then putBit (s.reg 6) i false else s.reg r := by
  rw [State.enterInterrupt, State.setPc_reg, State.pushAll_reg]
  by_cases h : r = 7
  · simp [h, spReg_eq, isReg_eq, State.frame, savedRegs]
  · simp [h, spReg_eq, isReg_eq]

theorem State.frame_length (s : State) : s.frame.length = 9 := rfl

theorem State.enterInterrupt_readByte_at (s : State) (i : Line) (k : Nat) (hk : k < 9) : (s.enterInterrupt i).readByte (s.reg 7 - BitVec.ofNat 8 (k+1)) =
    ((s.putIs i false).setIe false).frame[k]'hk := by
  have := State.pushAll_readByte_at ((s.putIs i false).setIe false) ((s.putIs i false).setIe false).frame k hk (by rw [State.frame_length]; decide)
  rw [← this]
  rw [State.enterInterrupt, State.setPc_readByte]
  have e : ((s.putIs i false).setIe false).reg Config.spReg = s.reg 7 := by simp [isReg_eq, spReg_eq]
  rw [e]

/-! ### What the return restores -/

theorem State.returnFromInterrupt_sp (s : State) : s.returnFromInterrupt.reg 7 = s.reg 7 + 9 := by
  rw [State.returnFromInterrupt, State.setIe_reg, State.popPc, State.setPc_reg, State.reg_dropTop, if_pos spReg_eq.symm, State.popFl, State.setFl_reg, State.reg_dropTop, if_pos rfl, State.popRegs_sp _ _ (by decide)]
  show s.reg 7 + 7 + 1 + 1 = _
  bv_omega

theorem State.returnFromInterrupt_reg (s : State) (k : Nat) (hk : k < savedRegs.reverse.length) : s.returnFromInterrupt.reg (savedRegs.reverse[k]'hk) = s.readByte (s.reg 7 + BitVec.ofNat 8 k) := by
  have h7 : savedRegs.reverse[k]'hk ≠ 7 := by
    intro e
    have : (7 : RegIdx) ∈ savedRegs.reverse := e ▸ List.getElem_mem hk
    revert this; decide
  rw [State.returnFromInterrupt, State.setIe_reg, State.popPc, State.setPc_reg, State.reg_dropTop, if_neg h7, State.popFl, State.setFl_reg, State.reg_dropTop, if_neg h7, State.popRegs_at _ _ (by decide) (by decide)]

theorem State.returnFromInterrupt_fl (s : State) : s.returnFromInterrupt.fl = s.readByte (s.reg 7 + 7) := by
  rw [State.returnFromInterrupt, State.setIe_fl, State.popPc, State.setPc_fl, State.dropTop_fl, State.popFl, State.setFl_fl, State.top, State.popRegs_sp _ _ (by decide), State.popRegs_readByte]
  rfl

theorem State.returnFromInterrupt_pc (s : State) : s.returnFromInterrupt.pc = s.readByte (s.reg 7 + 8) := by
  rw [State.returnFromInterrupt, State.setIe_pc, State.popPc, State.setPc_pc, State.top, State.popFl, State.setFl_reg, State.setFl_readByte, State.reg_dropTop, if_pos rfl, State.dropTop_readByte, State.popRegs_sp _ _ (by decide), State.popRegs_readByte]
  congr 1
  show s.reg 7 + 7 + 1 = _
  bv_omega

theorem State.returnFromInterrupt_readByte (s : State) (a : Byte) : s.returnFromInterrupt.readByte a = s.readByte a := by
  show memRead _ _ = memRead _ _
  rw [State.returnFromInterrupt_mem]

/-! ### What the whole poll leaves alone -/

theorem State.poll_run (s : State) : s.poll.run = s.run := by
  unfold State.poll
  rcases s.latchRequests.interruptAccept_cases with ⟨_, e⟩ | ⟨i, _, e⟩ <;> rw [e] <;> simp [State.latchRequests]

theorem State.poll_out (s : State) : s.poll.out = s.out := by
  unfold State.poll
  rcases s.latchRequests.interruptAccept_cases with ⟨_, e⟩ | ⟨i, _, e⟩ <;> rw [e] <;> simp [State.latchRequests]

theorem State.poll_inputs (s : State) : s.poll.inputs = s.inputs.tail := by
  unfold State.poll
  rcases s.latchRequests.interruptAccept_cases with ⟨_, e⟩ | ⟨i, _, e⟩ <;> rw [e] <;> simp [State.latchRequests]

theorem State.poll_cycle (s : State) : s.poll.cycle = s.cycle + 1 := by
  unfold State.poll
  rcases s.latchRequests.interruptAccept_cases with ⟨_, e⟩ | ⟨i, _, e⟩ <;> rw [e] <;> simp [State.latchRequests]

theorem State.poll_fl (s : State) : s.poll.fl = s.fl := by
  unfold State.poll
  rcases s.latchRequests.interruptAccept_cases with ⟨_, e⟩ | ⟨i, _, e⟩ <;> rw [e] <;> simp [State.latchRequests]

theorem State.wf_poll {s : State} (h : Memory.wf s.mem = true) : Memory.wf s.poll.mem = true := by
  have h2 : Memory.wf s.latchRequests.mem = true := State.wf_keyboardPoll (by simpa using h) _
  unfold State.poll
  rcases s.latchRequests.interruptAccept_cases with ⟨_, e⟩ | ⟨i, _, e⟩ <;> rw [e]
  · exact h2
  · exact State.wf_enterInterrupt h2 i

end Sys2Proof.Machine
end

