-- ==== Sys2Proof/Laws/Exec.lean ====
section
/-! SUPPORT. The inversion lemma of `exec`: everything a meaning can do, guards included, said once. A proof about all
instructions cites `exec_next` and takes its cases; it does not unfold the meanings again. -/

namespace Sys2Proof.Machine

/-- What executing an instruction in `s` can lead to. -/
inductive ExecTo (s : State) : Instr → State → Prop where
  | badReg (i : Instr) (h : i.wf = false) : ExecTo s i (s.raise (.bounds .regindex))
  | ldi (r : RegIdx) (imm : Byte) : ExecTo s (.ldi (regByte r) imm) ((s.setReg r imm).advance 3)
  | prn (r : RegIdx) : ExecTo s (.prn (regByte r)) ((s.emit (.dec (s.reg r))).advance 2)
  | pra (r : RegIdx) : ExecTo s (.pra (regByte r)) ((s.emit (.chr (s.reg r))).advance 2)
  | hlt : ExecTo s .hlt s.halt
  | push (r : RegIdx) : ExecTo s (.push (regByte r)) ((s.push (s.reg r)).advance 2)
  | pop (r : RegIdx) : ExecTo s (.pop (regByte r)) ((s.popReg r).advance 2)
  | call (r : RegIdx) (h : s.pc.toNat + 2 ≤ 255) :
      ExecTo s (.call (regByte r)) ((s.push (s.pc + 2)).setPc ((s.push (s.pc + 2)).reg r))
  | callOverflow (r : RegIdx) (h : 255 < s.pc.toNat + 2) : ExecTo s (.call (regByte r)) (s.raise (.bounds .pcoverflow))
  | ret : ExecTo s .ret s.popPc
  | jmp (r : RegIdx) : ExecTo s (.jmp (regByte r)) (s.setPc (s.reg r))
  | jeq (r : RegIdx) : ExecTo s (.jeq (regByte r)) (s.jumpIf (flagE s.fl) r)
  | jne (r : RegIdx) : ExecTo s (.jne (regByte r)) (s.jumpIf (!flagE s.fl) r)
  | ld (r q : RegIdx) : ExecTo s (.ld (regByte r) (regByte q)) ((s.setReg r (s.readByte (s.reg q))).advance 3)
  | st (r q : RegIdx) : ExecTo s (.st (regByte r) (regByte q)) ((s.writeByte (s.reg r) (s.reg q)).advance 3)
  | add (r q : RegIdx) : ExecTo s (.add (regByte r) (regByte q)) ((s.setReg r (aluAdd (s.reg r) (s.reg q))).advance 3)
  | mul (r q : RegIdx) : ExecTo s (.mul (regByte r) (regByte q)) ((s.setReg r (aluMul (s.reg r) (s.reg q))).advance 3)
  | and (r q : RegIdx) : ExecTo s (.and (regByte r) (regByte q)) ((s.setReg r (aluAnd (s.reg r) (s.reg q))).advance 3)
  | or (r q : RegIdx) : ExecTo s (.or (regByte r) (regByte q)) ((s.setReg r (aluOr (s.reg r) (s.reg q))).advance 3)
  | xor (r q : RegIdx) : ExecTo s (.xor (regByte r) (regByte q)) ((s.setReg r (aluXor (s.reg r) (s.reg q))).advance 3)
  | not (r : RegIdx) : ExecTo s (.not (regByte r)) ((s.setReg r (aluNot (s.reg r))).advance 2)
  | shl (r q : RegIdx) : ExecTo s (.shl (regByte r) (regByte q)) ((s.setReg r (aluShl (s.reg r) (s.reg q))).advance 3)
  | shr (r q : RegIdx) : ExecTo s (.shr (regByte r) (regByte q)) ((s.setReg r (aluShr (s.reg r) (s.reg q))).advance 3)
  | mod (r q : RegIdx) (h : s.reg q ≠ 0) :
      ExecTo s (.mod (regByte r) (regByte q)) ((s.setReg r (aluMod (s.reg r) (s.reg q))).advance 3)
  | modZero (r q : RegIdx) (h : s.reg q = 0) : ExecTo s (.mod (regByte r) (regByte q)) (s.raise .divzero)
  | inc (r : RegIdx) : ExecTo s (.inc (regByte r)) ((s.setReg r (aluInc (s.reg r))).advance 2)
  | dec (r : RegIdx) : ExecTo s (.dec (regByte r)) ((s.setReg r (aluDec (s.reg r))).advance 2)
  | cmp (r q : RegIdx) :
      ExecTo s (.cmp (regByte r) (regByte q)) ((s.setFl (cmpFlags s.fl (s.reg r) (s.reg q))).advance 3)
  | iret : ExecTo s .iret s.returnFromInterrupt

variable {s t : State}

/-- One register operand: the rule on a legal register, or `badReg`. -/
theorem execTo_of_withReg {mk : Byte → Instr} {a : Byte} {k : RegIdx → State} (h : withReg a s k = .next t)
    (hwf : isRegByte a = false → (mk a).wf = false) (hk : ∀ r, ExecTo s (mk (regByte r)) (k r)) : ExecTo s (mk a) t := by
  rcases withReg_cases h with ⟨r, rfl, rfl⟩ | ⟨hb, rfl⟩
  · exact hk r
  · exact .badReg _ (hwf hb)

/-- Two register operands: the rule on legal registers, or `badReg`. -/
theorem execTo_of_withRegs {mk : Byte → Byte → Instr} {a b : Byte} {k : RegIdx → RegIdx → State}
    (h : withRegs a b s k = .next t) (hwf : isRegByte a = false ∨ isRegByte b = false → (mk a b).wf = false)
    (hk : ∀ r q, ExecTo s (mk (regByte r) (regByte q)) (k r q)) : ExecTo s (mk a b) t := by
  rcases withRegs_cases h with ⟨r, q, rfl, rfl, rfl⟩ | ⟨hb, rfl⟩
  · exact hk r q
  · exact .badReg _ (hwf hb)

/-- THE INVERSION LEMMA: if an instruction answers a next state, it is one of these. -/
theorem exec_next {i : Instr} (h : exec i s = .next t) : ExecTo s i t := by
  have one : ∀ {mk : Byte → Instr} {a : Byte}, (mk a).regBytes = [a] → isRegByte a = false → (mk a).wf = false := by
    intro mk a hr hb; simp [Instr.wf, hr, hb]
  have two : ∀ {mk : Byte → Byte → Instr} {a b : Byte}, (mk a b).regBytes = [a, b] →
      isRegByte a = false ∨ isRegByte b = false → (mk a b).wf = false := by
    intro mk a b hr hb; rcases hb with hb | hb <;> simp [Instr.wf, hr, hb]
  cases i with
  | ldi a imm => exact execTo_of_withReg (mk := (Instr.ldi · imm)) h (one (mk := (Instr.ldi · imm)) rfl) fun r => .ldi r imm
  | prn a => exact execTo_of_withReg (mk := Instr.prn) h (one rfl) .prn
  | pra a => exact execTo_of_withReg (mk := Instr.pra) h (one rfl) .pra
  | hlt => cases h; exact .hlt
  | push a => exact execTo_of_withReg (mk := Instr.push) h (one rfl) .push
  | pop a => exact execTo_of_withReg (mk := Instr.pop) h (one rfl) .pop
  | call a =>
    refine execTo_of_withReg (mk := Instr.call) h (one rfl) fun r => ?_
    by_cases hp : s.pc.toNat + 2 ≤ 0xFF
    · rw [if_pos hp]; exact .call r hp
    · rw [if_neg hp]; exact .callOverflow r (not_le.1 hp)
  | ret => cases h; exact .ret
  | jmp a => exact execTo_of_withReg (mk := Instr.jmp) h (one rfl) .jmp
  | jeq a => exact execTo_of_withReg (mk := Instr.jeq) h (one rfl) .jeq
  | jne a => exact execTo_of_withReg (mk := Instr.jne) h (one rfl) .jne
  | ld a b => exact execTo_of_withRegs (mk := Instr.ld) h (two rfl) .ld
  | st a b => exact execTo_of_withRegs (mk := Instr.st) h (two rfl) .st
  | add a b => exact execTo_of_withRegs (mk := Instr.add) h (two rfl) .add
  | mul a b => exact execTo_of_withRegs (mk := Instr.mul) h (two rfl) .mul
  | and a b => exact execTo_of_withRegs (mk := Instr.and) h (two rfl) .and
  | or a b => exact execTo_of_withRegs (mk := Instr.or) h (two rfl) .or
  | xor a b => exact execTo_of_withRegs (mk := Instr.xor) h (two rfl) .xor
  | not a => exact execTo_of_withReg (mk := Instr.not) h (one rfl) .not
  | shl a b => exact execTo_of_withRegs (mk := Instr.shl) h (two rfl) .shl
  | shr a b => exact execTo_of_withRegs (mk := Instr.shr) h (two rfl) .shr
  | mod a b =>
    refine execTo_of_withRegs (mk := Instr.mod) h (two rfl) fun r q => ?_
    by_cases hz : s.reg q = 0
    · rw [if_pos hz]; exact .modZero r q hz
    · rw [if_neg hz]; exact .mod r q hz
  | inc a => exact execTo_of_withReg (mk := Instr.inc) h (one rfl) .inc
  | dec a => exact execTo_of_withReg (mk := Instr.dec) h (one rfl) .dec
  | cmp a b => exact execTo_of_withRegs (mk := Instr.cmp) h (two rfl) .cmp
  | iret =>
    have e : Host.Outcome.next s.returnFromInterrupt = .next t := h
    rw [← Host.Outcome.next.inj e]; exact .iret

/-- What the conditional jump can do. -/
theorem State.jumpIf_cases (s : State) (taken : Bool) (r : RegIdx) :
    (taken = true ∧ s.jumpIf taken r = s.setPc (s.reg r)) ∨ (taken = false ∧ s.jumpIf taken r = s.advance 2) := by
  cases taken
  · exact .inr ⟨rfl, rfl⟩
  · exact .inl ⟨rfl, rfl⟩

end Sys2Proof.Machine
end

