-- ==== Sys2Proof/Laws/Cycle.lean ====
section
/-! SUPPORT. Fetch, decode and the step: the bytes the fetch window holds, the opcode a decoded instruction had, and the
inversion lemma of the step (spec/40_execution_cycle.md R70 to R73). -/

namespace Sys2Proof.Machine

/-! ### The fetch window -/

/-- If the cells from pc on hold these bytes, the window begins with them. -/
theorem State.fetchWindow_of_bytes (s : State) (bs : List Byte) (hlen : bs.length ≤ 3) (hb : s.pc.toNat + bs.length ≤ 256)
   (h : ∀ k, k < bs.length → bs[k]? = some (s.readByte (s.pc + BitVec.ofNat 8 k))) : ∃ rest, s.fetchWindow = bs ++ rest := by
  unfold State.fetchWindow
  have e : List.range 3 = [0,1,2] := rfl
  rw [e]
  match bs, hlen with
  | [], _ => exact ⟨_, rfl⟩
  | [a], _ =>
    have h0 := h 0 (by simp)
    simp at h0 hb
    have : s.pc.toNat ≤ 255 := by omega
    simp [List.filter_cons, this, h0]
  | [a,b], _ =>
    have h0 := h 0 (by simp)
    have h1 := h 1 (by simp)
    simp at h0 h1 hb
    have : s.pc.toNat ≤ 255 := by omega
    have : s.pc.toNat +1 ≤ 255 := by omega
    simp [List.filter_cons, *]
  | [a,b,c], _ =>
    have h0 := h 0 (by simp)
    have h1 := h 1 (by simp)
    have h2 := h 2 (by simp)
    simp at h0 h1 h2 hb
    have : s.pc.toNat ≤ 255 := by omega
    have : s.pc.toNat +1 ≤ 255 := by omega
    have : s.pc.toNat +2 ≤ 255 := by omega
    simp [*]

/-- The window begins with the byte at pc. -/
theorem State.fetchWindow_cons (s : State) : ∃ rest, s.fetchWindow = s.readByte s.pc :: rest := by
  obtain ⟨rest, h⟩ := State.fetchWindow_of_bytes s [s.readByte s.pc] (by simp) (by have := s.pc.isLt; simp; omega) (by simp)
  exact ⟨rest, h⟩

/-! ### Decoding -/

theorem length_encode_le (i : Instr) : (encode i).length ≤ 3 := by cases i <;> simp [encode, Instr.operandBytes]

/-- The instruction decoded has the opcode that was there. -/
theorem opcode_of_decode {op : Byte} {rest : List Byte} {i r} (h : decode (op :: rest) = .ok (i, r)) : i.opcode = op := by
  simp only [decode] at h
  split at h
  · cases h
  all_goals try cases h
  all_goals
    next hl =>
    unfold lookupOpcode opcodeTable at hl
    simp only [List.cons_append, List.nil_append, List.lookup] at hl
    repeat' split at hl
    all_goals (first | (cases hl; done) | skip)
    all_goals (simp only [beq_iff_eq] at *; subst_vars; cases hl; rfl)

/-- How many operand bytes an entry of the opcode table takes. -/
def operandCount : OpShape → Nat
  | .z _ => 0
  | .r _ => 1
  | .rr _ => 2

/-- Every opcode of the table is some instruction's, and takes as many operand bytes as its bits 7:6 say (spec R51, R55). -/
theorem lookupOpcode_some {op : Byte} {sh : OpShape} (h : lookupOpcode op = some sh) :
    (∃ i : Instr, i.opcode = op) ∧ operandCount sh = nopnd op := by
  unfold lookupOpcode opcodeTable at h
  simp only [List.cons_append, List.nil_append, List.lookup] at h
  have found : ∀ {i : Instr} {o : Byte} {sh' : OpShape}, (op == o) = true → i.opcode = o → operandCount sh' = nopnd o →
      some sh' = some sh → (∃ i : Instr, i.opcode = op) ∧ operandCount sh = nopnd op := by
    intro i o sh' ho hi hc he
    cases he
    rw [beq_iff_eq.1 ho]
    exact ⟨⟨i, hi⟩, hc⟩
  split at h; · exact found (i := .ldi 0 0) ‹_› rfl rfl h
  split at h; · exact found (i := .prn 0) ‹_› rfl rfl h
  split at h; · exact found (i := .pra 0) ‹_› rfl rfl h
  split at h; · exact found (i := .hlt) ‹_› rfl rfl h
  split at h; · exact found (i := .push 0) ‹_› rfl rfl h
  split at h; · exact found (i := .pop 0) ‹_› rfl rfl h
  split at h; · exact found (i := .call 0) ‹_› rfl rfl h
  split at h; · exact found (i := .ret) ‹_› rfl rfl h
  split at h; · exact found (i := .jmp 0) ‹_› rfl rfl h
  split at h; · exact found (i := .jeq 0) ‹_› rfl rfl h
  split at h; · exact found (i := .jne 0) ‹_› rfl rfl h
  split at h; · exact found (i := .ld 0 0) ‹_› rfl rfl h
  split at h; · exact found (i := .st 0 0) ‹_› rfl rfl h
  split at h; · exact found (i := .add 0 0) ‹_› rfl rfl h
  split at h; · exact found (i := .mul 0 0) ‹_› rfl rfl h
  split at h; · exact found (i := .and 0 0) ‹_› rfl rfl h
  split at h; · exact found (i := .or 0 0) ‹_› rfl rfl h
  split at h; · exact found (i := .xor 0 0) ‹_› rfl rfl h
  split at h; · exact found (i := .not 0) ‹_› rfl rfl h
  split at h; · exact found (i := .shl 0 0) ‹_› rfl rfl h
  split at h; · exact found (i := .shr 0 0) ‹_› rfl rfl h
  split at h; · exact found (i := .mod 0 0) ‹_› rfl rfl h
  split at h; · exact found (i := .inc 0) ‹_› rfl rfl h
  split at h; · exact found (i := .dec 0) ‹_› rfl rfl h
  split at h; · exact found (i := .cmp 0 0) ‹_› rfl rfl h
  split at h; · exact found (i := .iret) ‹_› rfl rfl h
  cases h

/-- What decoding can refuse, once there is an opcode byte: the byte is no opcode, or operand bytes are missing. -/
theorem decode_error {op : Byte} {rest : List Byte} {e : DecodeFail} (h : decode (op :: rest) = .error e) :
    (e = .unknownOpcode op ∧ lookupOpcode op = none) ∨
      (e = .operandMissing op ∧ (∃ i : Instr, i.opcode = op) ∧ rest.length < nopnd op) := by
  cases hl : lookupOpcode op with
  | none => simp only [decode, hl] at h; cases h; exact .inl ⟨rfl, rfl⟩
  | some sh =>
    obtain ⟨hi, hc⟩ := lookupOpcode_some hl
    rw [← hc]
    rcases sh with i | f | f <;> rcases rest with _ | ⟨a, _ | ⟨b, rest⟩⟩ <;> simp only [decode, hl] at h <;> cases h <;>
      exact .inr ⟨rfl, hi, by simp [operandCount]⟩

/-- The window is three bytes long, or shorter at the end of memory. -/
theorem State.length_fetchWindow (s : State) : s.fetchWindow.length = min 3 (256 - s.pc.toNat) := by
  have := s.pc.isLt
  unfold State.fetchWindow
  rw [show List.range 3 = [0, 1, 2] from rfl]
  by_cases h1 : s.pc.toNat + 1 ≤ 255 <;> by_cases h2 : s.pc.toNat + 2 ≤ 255 <;>
    simp [show s.pc.toNat ≤ 255 by omega, h1, h2] <;> omega

/-! ### The step -/

/-- Everything a step can do. -/
inductive StepTo (s : State) : State → Prop
  | stopped {status c} (h : s.run = .stopped status c) : StepTo s s
  | unknown (op) (h : s.run = .running) (hl : lookupOpcode op = none) (hop : op = s.poll.readByte s.poll.pc) :
      StepTo s (s.poll.raise (.decode op))
  | fetch (i : Instr) (h : s.run = .running) (hi : i.opcode = s.poll.readByte s.poll.pc)
      (hp : s.poll.pc.toNat + nopnd i.opcode > 0xFF) : StepTo s (s.poll.raise (.bounds .fetch))
  | exec (i rest t) (h : s.run = .running) (hd : decode s.poll.fetchWindow = .ok (i, rest))
      (hi : i.opcode = s.poll.readByte s.poll.pc) (he : exec i s.poll = .next t) : StepTo s t

/-- THE INVERSION LEMMA of the step. -/
theorem step_next {s t : State} (h : step s = .next t) : StepTo s t := by
  unfold step runCycle at h
  split at h
  · next hr => cases h; exact .stopped hr
  · next hr =>
    unfold fetchAndExec at h
    obtain ⟨rest, hw⟩ := State.fetchWindow_cons s.poll
    have hlen := s.poll.length_fetchWindow
    rw [hw] at h
    rw [hw, List.length_cons] at hlen
    split at h
    · next i r hd => exact .exec i r t hr (hw ▸ hd) (opcode_of_decode hd) h
    · next op hd =>
      rcases decode_error hd with ⟨e, hl⟩ | ⟨e, _⟩ <;> cases e
      cases h; exact .unknown _ hr hl rfl
    · next op hd =>
      rcases decode_error hd with ⟨e, _⟩ | ⟨e, ⟨i, hi⟩, hlt⟩ <;> cases e
      cases h
      have hn : nopnd (s.poll.readByte s.poll.pc) ≤ 2 := by
        rw [← hi]; cases i <;> simp [Instr.opcode, nopnd]
      exact .fetch i hr hi (by rw [hi]; omega)
    · next hd => rcases decode_error hd with ⟨e, _⟩ | ⟨e, _⟩ <;> cases e

/-! ### The host's placed word -/

/-- Where the host places a word nothing is accepted in the next cycle: its poll only uses up the reading. -/
theorem State.poll_placeTableWord (s : State) (nbits w : Nat) :
    (s.placeTableWord nbits w).poll = (s.placeTableWord nbits w).consumeInput := by
  obtain ⟨p, hp⟩ : ∃ p, p = s.placeTableWord nbits w := ⟨_, rfl⟩
  have hf : p = { s.readyToFetch with mem := p.mem } := by rw [hp]; exact State.writeBytes_frame _ _ _
  have hin : p.nextInput = { now := p.ltf, key := none } := by rw [hf]; rfl
  have hl : p.latchRequests = p.consumeInput := by
    rw [State.latchRequests, hin]
    simp [State.keyboardPoll, State.timerPoll, timerDue, Config.timerPeriod]
  have ha : p.consumeInput.acceptedLine = none := by
    have hie : p.ie = if s.acceptedLine = none then s.ie else false := by rw [hf]; rfl
    have hm : p.maskedPending = s.maskedPending := by rw [hf]; rfl
    show (if p.ie then lowestLine p.maskedPending else none) = none
    rw [hie, hm]
    by_cases h : s.acceptedLine = none
    · rw [if_pos h]; exact h
    · rw [if_neg h]; rfl
  rw [← hp, State.poll, hl]
  rcases p.consumeInput.interruptAccept_cases with ⟨_, e⟩ | ⟨i, e, _⟩
  · exact e
  · rw [ha] at e; cases e

/-- `step` runs exactly the instruction that the decoder reads from the placed word. -/
theorem step_withFetchWord (s : State) (nbits w : Nat) (i : Instr) (h : decodeTableWord nbits w = some i) :
    step (s.withFetchWord nbits w) = exec i (s.withFetchWord nbits w).consumeInput := by
  have hp := s.poll_placeTableWord nbits w
  show runCycle (s.placeTableWord nbits w) = _
  obtain ⟨r, hr⟩ : ∃ r, r = s.readyToFetch := ⟨_, rfl⟩
  have hpc : r.pc.toNat + 2 ≤ 255 := by
    rw [hr]; show (if s.pc.toNat + 2 ≤ 0xFF then s.pc else 0).toNat + 2 ≤ 255
    split
    · assumption
    · decide
  have hw : s.placeTableWord nbits w = r.writeBytes r.pc (tableBytes nbits w) := by rw [hr]; rfl
  have hf := State.writeBytes_frame r r.pc (tableBytes nbits w)
  have hfetch : ∃ rest, (s.placeTableWord nbits w).consumeInput.fetchWindow = tableBytes nbits w ++ rest := by
    apply State.fetchWindow_of_bytes
    · simp [tableBytes]
    · show (s.placeTableWord nbits w).pc.toNat + 3 ≤ 256
      rw [hw, hf]; show r.pc.toNat + 3 ≤ 256; omega
    · intro k hk
      rw [hw]
      have hk2 : (r.writeBytes r.pc (tableBytes nbits w)).consumeInput.pc = r.pc := by
        rw [State.consumeInput_pc, hf]
      rw [State.consumeInput_readByte, hk2, State.readByte_writeBytes_at _ _ _ (by simp [tableBytes]) k hk]
      simp [hk]
  obtain ⟨rest, hfetch⟩ := hfetch
  obtain ⟨rest2, hd⟩ : ∃ rest2, decode (tableBytes nbits w ++ rest) = .ok (i, rest2) := by
    unfold decodeTableWord at h
    cases hb : decode (tableBytes nbits w) with
    | error e => rw [hb] at h; cases h
    | ok p =>
      obtain ⟨j, r2⟩ := p
      rw [hb] at h
      cases h
      refine ⟨r2 ++ rest, ?_⟩
      simp only [tableBytes, decode] at hb
      simp only [tableBytes, List.cons_append, List.nil_append, decode]
      cases hl : lookupOpcode (BitVec.ofNat 8 (w % 2 ^ nbits)) with
      | none => rw [hl] at hb; cases hb
      | some f => rw [hl] at hb; cases f <;> cases hb <;> rfl
  have hrun : (s.placeTableWord nbits w).run = .running := by
    rw [hw, hf, hr]; rfl
  unfold runCycle
  rw [hrun]
  show fetchAndExec (s.placeTableWord nbits w).poll = _
  rw [hp, fetchAndExec, hfetch, hd]
  rfl

/-! ### Single updates against the whole machine -/

theorem noReport_append (a b : List Event) : noReport (a ++ b) = (noReport a && noReport b) := by simp [noReport]

/-- A state that a step maps to itself is one that every run of steps maps to itself. -/
theorem run_of_fixed (M : Host.Core) (s : M.State) (h : M.step s = .next s) (k : Nat) : Host.Core.run M k s = .next s := by
  induction k with
  | zero => rfl
  | succ k ih => rw [Host.Core.run, h]; exact ih

end Sys2Proof.Machine
end

