-- ==== Sys2Proof/Laws/PerInstr.lean ====
section
/-! SUPPORT. The family Encoding: for every instruction, the length of its encoding is one more than bits 7:6 of its opcode
byte, and bit 4 is set exactly for the six instructions that determine pc themselves (spec R50, R55 (b) and (c)). -/

namespace Sys2Proof.Laws.Encoding

/-- The instructions that determine pc themselves (spec R55 (c); IRET by spec/90_conflicts.md C6). -/
def ownsPc : Instr → Bool
  | .call _ | .ret | .jmp _ | .jeq _ | .jne _ | .iret => true
  | .ldi _ _ | .prn _ | .pra _ | .hlt | .push _ | .pop _ | .ld _ _ | .st _ _ => false
  | .add _ _ | .mul _ _ | .and _ _ | .or _ _ | .xor _ _ | .not _ | .shl _ _ | .shr _ _ => false
  | .mod _ _ | .inc _ | .dec _ | .cmp _ _ => false

/-- The fields of the opcode byte agree with the instruction. -/
def Statement (i : Instr) : Prop :=
  (encode i).length = nopnd i.opcode + 1 ∧ setsPc i.opcode = ownsPc i ∧ i.operandBytes.length ≤ 2

theorem ldi (ra imm : Byte) : Statement (.ldi ra imm) :=
  ⟨(by decide : 3 = nopnd 0x82#8 + 1), (by decide : setsPc 0x82#8 = false), by simp [Instr.operandBytes]⟩
theorem prn (ra : Byte) : Statement (.prn ra) :=
  ⟨(by decide : 2 = nopnd 0x47#8 + 1), (by decide : setsPc 0x47#8 = false), by simp [Instr.operandBytes]⟩
theorem pra (ra : Byte) : Statement (.pra ra) :=
  ⟨(by decide : 2 = nopnd 0x48#8 + 1), (by decide : setsPc 0x48#8 = false), by simp [Instr.operandBytes]⟩
theorem hlt : Statement .hlt :=
  ⟨(by decide : 1 = nopnd 0x01#8 + 1), (by decide : setsPc 0x01#8 = false), by simp [Instr.operandBytes]⟩
theorem push (ra : Byte) : Statement (.push ra) :=
  ⟨(by decide : 2 = nopnd 0x45#8 + 1), (by decide : setsPc 0x45#8 = false), by simp [Instr.operandBytes]⟩
theorem pop (ra : Byte) : Statement (.pop ra) :=
  ⟨(by decide : 2 = nopnd 0x46#8 + 1), (by decide : setsPc 0x46#8 = false), by simp [Instr.operandBytes]⟩
theorem call (ra : Byte) : Statement (.call ra) :=
  ⟨(by decide : 2 = nopnd 0x50#8 + 1), (by decide : setsPc 0x50#8 = true), by simp [Instr.operandBytes]⟩
theorem ret : Statement .ret :=
  ⟨(by decide : 1 = nopnd 0x11#8 + 1), (by decide : setsPc 0x11#8 = true), by simp [Instr.operandBytes]⟩
theorem jmp (ra : Byte) : Statement (.jmp ra) :=
  ⟨(by decide : 2 = nopnd 0x54#8 + 1), (by decide : setsPc 0x54#8 = true), by simp [Instr.operandBytes]⟩
theorem jeq (ra : Byte) : Statement (.jeq ra) :=
  ⟨(by decide : 2 = nopnd 0x55#8 + 1), (by decide : setsPc 0x55#8 = true), by simp [Instr.operandBytes]⟩
theorem jne (ra : Byte) : Statement (.jne ra) :=
  ⟨(by decide : 2 = nopnd 0x56#8 + 1), (by decide : setsPc 0x56#8 = true), by simp [Instr.operandBytes]⟩
theorem ld (ra rb : Byte) : Statement (.ld ra rb) :=
  ⟨(by decide : 3 = nopnd 0x83#8 + 1), (by decide : setsPc 0x83#8 = false), by simp [Instr.operandBytes]⟩
theorem st (ra rb : Byte) : Statement (.st ra rb) :=
  ⟨(by decide : 3 = nopnd 0x84#8 + 1), (by decide : setsPc 0x84#8 = false), by simp [Instr.operandBytes]⟩
theorem add (ra rb : Byte) : Statement (.add ra rb) :=
  ⟨(by decide : 3 = nopnd 0xA0#8 + 1), (by decide : setsPc 0xA0#8 = false), by simp [Instr.operandBytes]⟩
theorem mul (ra rb : Byte) : Statement (.mul ra rb) :=
  ⟨(by decide : 3 = nopnd 0xA2#8 + 1), (by decide : setsPc 0xA2#8 = false), by simp [Instr.operandBytes]⟩
theorem and (ra rb : Byte) : Statement (.and ra rb) :=
  ⟨(by decide : 3 = nopnd 0xA8#8 + 1), (by decide : setsPc 0xA8#8 = false), by simp [Instr.operandBytes]⟩
theorem or (ra rb : Byte) : Statement (.or ra rb) :=
  ⟨(by decide : 3 = nopnd 0xAA#8 + 1), (by decide : setsPc 0xAA#8 = false), by simp [Instr.operandBytes]⟩
theorem xor (ra rb : Byte) : Statement (.xor ra rb) :=
  ⟨(by decide : 3 = nopnd 0xAB#8 + 1), (by decide : setsPc 0xAB#8 = false), by simp [Instr.operandBytes]⟩
theorem not (ra : Byte) : Statement (.not ra) :=
  ⟨(by decide : 2 = nopnd 0x69#8 + 1), (by decide : setsPc 0x69#8 = false), by simp [Instr.operandBytes]⟩
theorem shl (ra rb : Byte) : Statement (.shl ra rb) :=
  ⟨(by decide : 3 = nopnd 0xAC#8 + 1), (by decide : setsPc 0xAC#8 = false), by simp [Instr.operandBytes]⟩
theorem shr (ra rb : Byte) : Statement (.shr ra rb) :=
  ⟨(by decide : 3 = nopnd 0xAD#8 + 1), (by decide : setsPc 0xAD#8 = false), by simp [Instr.operandBytes]⟩
theorem mod (ra rb : Byte) : Statement (.mod ra rb) :=
  ⟨(by decide : 3 = nopnd 0xA4#8 + 1), (by decide : setsPc 0xA4#8 = false), by simp [Instr.operandBytes]⟩
theorem inc (ra : Byte) : Statement (.inc ra) :=
  ⟨(by decide : 2 = nopnd 0x65#8 + 1), (by decide : setsPc 0x65#8 = false), by simp [Instr.operandBytes]⟩
theorem dec (ra : Byte) : Statement (.dec ra) :=
  ⟨(by decide : 2 = nopnd 0x66#8 + 1), (by decide : setsPc 0x66#8 = false), by simp [Instr.operandBytes]⟩
theorem cmp (ra rb : Byte) : Statement (.cmp ra rb) :=
  ⟨(by decide : 3 = nopnd 0xA7#8 + 1), (by decide : setsPc 0xA7#8 = false), by simp [Instr.operandBytes]⟩
theorem iret : Statement .iret :=
  ⟨(by decide : 1 = nopnd 0x13#8 + 1), (by decide : setsPc 0x13#8 = true), by simp [Instr.operandBytes]⟩

end Sys2Proof.Laws.Encoding
end

