-- ==== Sys2Proof/Tests/Slice0.lean ====
section
/-! SUPPORT. Tests. Expected values are those of spec/95_test_vectors.md, named V-..., or worked out by hand from the rule that
is named; the words are written out bit by bit from spec/30_encoding.md R51, R52 and R55. The witnesses at the end meet the
hypotheses of the obligations. -/

namespace Sys2Proof.Tests

open Sys2Proof.Machine

/-! ### Helpers -/

/-- The outcome is a next state with this property. -/
def after (o : Result) (p : State → Bool) : Bool :=
  match o with
  | .next t => p t
  | _ => false

/-- Reset state with some registers set, pc at `a`, and an environment that delivers nothing in the next cycle. -/
def start (a : Byte) (rs : List (RegIdx × Byte)) : State :=
  rs.foldl (fun s r => s.setReg r.1 r.2) { State.reset with pc := a, inputs := [{ now := 0, key := none }] }

/-- One cycle on these bytes at 0x10. -/
def run1 (bytes : List Byte) (rs : List (RegIdx × Byte)) : Result := step ((start 0x10 rs).writeBytes 0x10 bytes)

/-- One cycle on these bytes at `a`. -/
def run1At (a : Byte) (bytes : List Byte) (rs : List (RegIdx × Byte)) : Result := step ((start a rs).writeBytes a bytes)

/-! ### WellFormed -/

theorem test_wf_first_operand : (Instr.push 8).wf = false := by decide
theorem test_wf_first_of_two : (Instr.ld 8 0).wf = false := by decide
theorem test_wf_second_of_two : (Instr.cmp 7 8).wf = false := by decide
theorem test_wf_highest_byte : (Instr.inc 255).wf = false := by decide
theorem test_wf_ldi_register : (Instr.ldi 8 0).wf = false := by decide
theorem test_wf_immediate_is_free : (Instr.ldi 7 255).wf = true := by decide
theorem test_wf_highest_registers : (Instr.st 7 7).wf = true := by decide
theorem test_wf_no_operand : (Instr.iret).wf = true := by decide

/-! ### Decode -/

theorem test_decode_ldi : decode [0b10000010#8, 0b00000011#8, 0b11111111#8] = .ok (.ldi 3 255, []) := by decide
theorem test_decode_prn : decode [0b01000111#8, 0b00000111#8] = .ok (.prn 7, []) := by decide
theorem test_decode_pra : decode [0b01001000#8, 0b00000001#8] = .ok (.pra 1, []) := by decide
theorem test_decode_hlt : decode [0b00000001#8] = .ok (.hlt, []) := by decide
theorem test_decode_push : decode [0b01000101#8, 0b00000010#8] = .ok (.push 2, []) := by decide
theorem test_decode_pop : decode [0b01000110#8, 0b00000100#8] = .ok (.pop 4, []) := by decide
theorem test_decode_call : decode [0b01010000#8, 0b00000001#8] = .ok (.call 1, []) := by decide
theorem test_decode_ret : decode [0b00010001#8] = .ok (.ret, []) := by decide
theorem test_decode_jmp : decode [0b01010100#8, 0b00000110#8] = .ok (.jmp 6, []) := by decide
theorem test_decode_jeq : decode [0b01010101#8, 0b00000010#8] = .ok (.jeq 2, []) := by decide
theorem test_decode_jne : decode [0b01010110#8, 0b00000101#8] = .ok (.jne 5, []) := by decide
theorem test_decode_ld : decode [0b10000011#8, 0b00000000#8, 0b00000001#8] = .ok (.ld 0 1, []) := by decide
theorem test_decode_st : decode [0b10000100#8, 0b00000001#8, 0b00000000#8] = .ok (.st 1 0, []) := by decide
theorem test_decode_add : decode [0b10100000#8, 0b00000010#8, 0b00000011#8] = .ok (.add 2 3, []) := by decide
theorem test_decode_mul : decode [0b10100010#8, 0b00000100#8, 0b00000101#8] = .ok (.mul 4 5, []) := by decide
theorem test_decode_and : decode [0b10101000#8, 0b00000001#8, 0b00000110#8] = .ok (.and 1 6, []) := by decide
theorem test_decode_or : decode [0b10101010#8, 0b00000110#8, 0b00000000#8] = .ok (.or 6 0, []) := by decide
theorem test_decode_xor : decode [0b10101011#8, 0b00000011#8, 0b00000111#8] = .ok (.xor 3 7, []) := by decide
theorem test_decode_not : decode [0b01101001#8, 0b00000101#8] = .ok (.not 5, []) := by decide
theorem test_decode_shl : decode [0b10101100#8, 0b00000000#8, 0b00000010#8] = .ok (.shl 0 2, []) := by decide
theorem test_decode_shr : decode [0b10101101#8, 0b00000111#8, 0b00000001#8] = .ok (.shr 7 1, []) := by decide
theorem test_decode_mod : decode [0b10100100#8, 0b00000010#8, 0b00000000#8] = .ok (.mod 2 0, []) := by decide
theorem test_decode_inc : decode [0b01100101#8, 0b00000111#8] = .ok (.inc 7, []) := by decide
theorem test_decode_dec : decode [0b01100110#8, 0b00000011#8] = .ok (.dec 3, []) := by decide
theorem test_decode_cmp : decode [0b10100111#8, 0b00000000#8, 0b00000001#8] = .ok (.cmp 0 1, []) := by decide
theorem test_decode_iret : decode [0b00010011#8] = .ok (.iret, []) := by decide

theorem test_decode_leaves_rest : decode [0x11, 0x47] = .ok (.ret, [0x47]) := by decide
/-- V-DEC-1 to V-DEC-5: illegal bytes, each refused as a whole byte. -/
theorem test_decode_illegal : ([0x00, 0xA1, 0xA3, 0x52, 0x57, 0x58, 0x59, 0x5A, 0xFF, 0x02, 0x81, 0xC2] : List Byte).all
    (fun b => decide (decode [b, 0, 1] = .error (.unknownOpcode b))) = true := by decide
theorem test_decode_operand_missing : decode [0x82, 0] = .error (.operandMissing 0x82) := by decide
theorem test_decode_nothing : decode [] = .error .noOpcode := by decide
/-- Operands beyond `nbits` are zero. -/
theorem test_table_word_short : decodeTableWord 8 0xA0 = some (.add 0 0) := by decide
theorem test_table_word_byte_order : decodeTableWord 24 0xFF0382 = some (.ldi 3 255) := by decide
theorem test_table_word_illegal : decodeTableWord 8 0xA1 = none := by decide
theorem test_encode_st : encode (.st 1 0) = [0x84, 1, 0] := by decide

/-! ### Memory -/

theorem test_write_fill_unlists : memWrite [(0x10, 0x01)] 0x10 0x00 = [] := by decide
theorem test_write_sorted : memWrite [(0x10, 0x01), (0x30, 0x03)] 0x20 0x02 = [(0x10, 0x01), (0x20, 0x02), (0x30, 0x03)] := by
  decide
theorem test_wf_rejects_fill : Memory.wf [(0x10, 0x00)] = false := by decide
theorem test_wf_rejects_order : Memory.wf [(0x20, 0x01), (0x10, 0x01)] = false := by decide
theorem test_wf_rejects_address : Memory.wf [(256, 0x01)] = false := by decide

/-! ### One cycle per test -/

/-- V-LDI-1 -/
theorem test_ldi : after (run1 [0x82, 0x00, 0x08] [])
    (fun t => t.reg 0 == 0x08 && t.pc == 0x13 && t.run == .running) = true := by decide
/-- V-LDI-5 -/
theorem test_ldi_bad_register : after (run1 [0x82, 0x08, 0x01] [])
    (fun t => t == { start 0x10 [] with mem := t.mem, run := .stopped 1 (.bounds .regindex), out := [.report (.bounds .regindex)], inputs := [], cycle := 1 }) = true := by decide
/-- V-PRN-2 -/
theorem test_prn : after (run1 [0x47, 0x01] [(1, 0xFF)])
    (fun t => t.out == [.dec 255] && t.pc == 0x12) = true := by decide
/-- V-PRN-1 and V-PRN-3: "17" and "0", each with a line feed -/
theorem test_prn_render : (renderEvent (.dec 17) == some ['1', '7', '\n'] && renderEvent (.dec 0) == some ['0', '\n']) = true := by decide
/-- V-PRA-1 -/
theorem test_pra : after (run1 [0x48, 0x01] [(1, 0x41)])
    (fun t => t.out == [.chr 0x41] && (t.out.map renderEvent) == [some ['A']] && t.pc == 0x12) = true := by decide
/-- V-HLT-2 -/
theorem test_hlt : after (run1At 0xFF [0x01] [])
    (fun t => t.run == .stopped 0 .halt && t.pc == 0xFF && t.out == []) = true := by decide
/-- V-STK-3 -/
theorem test_push_wraps : after (run1 [0x45, 0x00] [(0, 0x55), (7, 0x00)])
    (fun t => t.reg 7 == 0xFF && t.readByte 0xFF == 0x55 && t.pc == 0x12) = true := by decide
/-- V-STK-6 -/
theorem test_push_sp : after (run1 [0x45, 0x07] [])
    (fun t => t.reg 7 == 0xF3 && t.readByte 0xF3 == 0xF4) = true := by decide
/-- V-STK-2: the cell is not cleared -/
theorem test_pop : after (step (((start 0x10 [(7, 0xF3)]).writeBytes 0x10 [0x46, 0x01]).writeByte 0xF3 0x2A))
    (fun t => t.reg 1 == 0x2A && t.reg 7 == 0xF4 && t.readByte 0xF3 == 0x2A && t.pc == 0x12) = true := by decide
/-- V-STK-7 -/
theorem test_pop_sp : after (step (((start 0x10 [(7, 0xF3)]).writeBytes 0x10 [0x46, 0x07]).writeByte 0xF3 0x80))
    (fun t => t.reg 7 == 0x80) = true := by decide
/-- V-CTL-1 -/
theorem test_call : after (run1At 0x06 [0x50, 0x01] [(1, 0x0C)])
    (fun t => t.readByte 0xF3 == 0x08 && t.reg 7 == 0xF3 && t.pc == 0x0C) = true := by decide
/-- V-CTL-15 -/
theorem test_call_sp : after (run1 [0x50, 0x07] [])
    (fun t => t.readByte 0xF3 == 0x12 && t.reg 7 == 0xF3 && t.pc == 0xF3) = true := by decide
/-- V-CTL-2 -/
theorem test_ret : after (step (((start 0x17 [(7, 0xF3)]).writeBytes 0x17 [0x11]).writeByte 0xF3 0x08))
    (fun t => t.pc == 0x08 && t.reg 7 == 0xF4 && t.ie) = true := by decide
/-- V-CTL-3 -/
theorem test_jmp : after (run1 [0x54, 0x00] [(0, 0x06)])
    (fun t => t.pc == 0x06 && t.reg 7 == 0xF4) = true := by decide
/-- V-CTL-14 -/
theorem test_jmp_at_end : after (run1At 0xFF [0x54] [])
    (fun t => t.run == .stopped 1 (.bounds .fetch) && t.pc == 0xFF) = true := by decide
/-- V-CTL-13: no overflow when taken -/
theorem test_jeq_taken : after (step (((start 0xFE [(2, 0x00)]).writeBytes 0xFE [0x55, 0x02]).setFl 1)) (fun t => t.pc == 0x00 && t.run == .running) = true := by decide
/-- V-CTL-6 -/
theorem test_jeq_not_taken : after (step (((start 0x10 [(2, 0x20)]).writeBytes 0x10 [0x55, 0x02]).setFl 4)) (fun t => t.pc == 0x12) = true := by decide
/-- V-CTL-8 -/
theorem test_jne_taken : after (step (((start 0x10 [(2, 0x09)]).writeBytes 0x10 [0x56, 0x02]).setFl 4)) (fun t => t.pc == 0x09) = true := by decide
/-- V-CTL-16: regindex although the jump would not be taken -/
theorem test_jne_bad_register : after (step (((start 0x10 []).writeBytes 0x10 [0x56, 0x0A]).setFl 1))
    (fun t => t.run == .stopped 1 (.bounds .regindex)) = true := by decide
/-- V-MEM-3 -/
theorem test_ld_same_register : after (step (((start 0x10 [(2, 0xF4)]).writeBytes 0x10 [0x83, 0x02, 0x02]).writeByte 0xF4 0x6B)) (fun t => t.reg 2 == 0x6B) = true := by decide
/-- V-MEM-8 -/
theorem test_ld : after (step (((start 0x10 [(1, 0xFF)]).writeBytes 0x10 [0x83, 0x00, 0x01]).writeByte 0xFF 0x33))
    (fun t => t.reg 0 == 0x33 && t.reg 1 == 0xFF && t.pc == 0x13) = true := by decide
/-- V-MEM-2: the first register is the address -/
theorem test_st : after (run1 [0x84, 0x01, 0x00] [(1, 0x80), (0, 0x2A)])
    (fun t => t.readByte 0x80 == 0x2A && t.readByte 0x2A == 0x00 && t.pc == 0x13) = true := by decide
/-- V-MEM-5 -/
theorem test_st_vector : after (run1 [0x84, 0x00, 0x01] [(0, 0xF8), (1, 0x40)])
    (fun t => t.readByte 0xF8 == 0x40) = true := by decide
/-- V-ALU ADD 0xFF + 0xFF -/
theorem test_add_wraps : after (run1 [0xA0, 0x00, 0x01] [(0, 0xFF), (1, 0xFF)])
    (fun t => t.reg 0 == 0xFE && t.reg 1 == 0xFF && t.fl == 0 && t.pc == 0x13) = true := by decide
/-- V-ALU ADD R7,R0 -/
theorem test_add_sp : after (run1 [0xA0, 0x07, 0x00] [(0, 0x10)])
    (fun t => t.reg 7 == 0x04) = true := by decide
/-- V-ALU MUL 0x0D * 0x14 -/
theorem test_mul : after (run1 [0xA2, 0x00, 0x01] [(0, 0x0D), (1, 0x14)])
    (fun t => t.reg 0 == 0x04 && t.reg 1 == 0x14) = true := by decide
/-- V-ALU AND 0xF0, 0x3C -/
theorem test_and : after (run1 [0xA8, 0x00, 0x01] [(0, 0xF0), (1, 0x3C)])
    (fun t => t.reg 0 == 0x30) = true := by decide
/-- V-ALU OR R6,R0: line 2 pending -/
theorem test_or_is : after (run1 [0xAA, 0x06, 0x00] [(6, 0x02), (0, 0x04)])
    (fun t => t.reg 6 == 0x06 && t.pc == 0x13) = true := by decide
/-- V-ALU XOR 0xCC, 0xAA -/
theorem test_xor : after (run1 [0xAB, 0x00, 0x01] [(0, 0xCC), (1, 0xAA)])
    (fun t => t.reg 0 == 0x66) = true := by decide
/-- V-ALU NOT 0xCC -/
theorem test_not : after (run1 [0x69, 0x00] [(0, 0xCC)])
    (fun t => t.reg 0 == 0x33 && t.pc == 0x12) = true := by decide
/-- V-ALU SHL 0x05 by 2 -/
theorem test_shl : after (run1 [0xAC, 0x00, 0x01] [(0, 0x05), (1, 0x02)])
    (fun t => t.reg 0 == 0x14) = true := by decide
/-- V-ALU SHL by 8 -/
theorem test_shl_full : after (run1 [0xAC, 0x00, 0x01] [(0, 0x01), (1, 0x08)])
    (fun t => t.reg 0 == 0x00) = true := by decide
/-- V-ALU SHR 0x96 by 3 -/
theorem test_shr : after (run1 [0xAD, 0x00, 0x01] [(0, 0x96), (1, 0x03)])
    (fun t => t.reg 0 == 0x12) = true := by decide
/-- V-ALU SHR by 0xC8 -/
theorem test_shr_large : after (run1 [0xAD, 0x00, 0x01] [(0, 0xFF), (1, 0xC8)])
    (fun t => t.reg 0 == 0x00) = true := by decide
/-- V-ALU MOD 0x80, 0x7F -/
theorem test_mod : after (run1 [0xA4, 0x00, 0x01] [(0, 0x80), (1, 0x7F)])
    (fun t => t.reg 0 == 0x01 && t.pc == 0x13) = true := by decide
/-- V-DEC-8: precedes the overflow of pc -/
theorem test_mod_zero : after (run1At 0xFD [0xA4, 0x00, 0x01] [(0, 0x09)])
    (fun t => t.run == .stopped 1 .divzero && t.reg 0 == 0x09 && t.pc == 0xFD && t.out == [.report .divzero]) = true := by decide
/-- V-ALU INC 0xFF -/
theorem test_inc : after (run1 [0x65, 0x00] [(0, 0xFF)])
    (fun t => t.reg 0 == 0x00 && t.fl == 0) = true := by decide
/-- F4: the effect is kept, then pcoverflow -/
theorem test_inc_at_end : after (run1At 0xFE [0x65, 0x00] [])
    (fun t => t.reg 0 == 0x01 && t.pc == 0xFE && t.run == .stopped 1 (.bounds .pcoverflow)) = true := by decide
/-- V-ALU DEC 0x00 -/
theorem test_dec : after (run1 [0x66, 0x00] [])
    (fun t => t.reg 0 == 0xFF) = true := by decide
/-- V-CMP with bits 7:3 set -/
theorem test_cmp_keeps_high_bits : after (step (((start 0x10 [(0, 3), (1, 5)]).writeBytes 0x10 [0xA7, 0x00, 0x01]).setFl 0b10100010)) (fun t => t.fl == 0b10100100) = true := by decide
/-- V-CMP 0x80 and 0x7F -/
theorem test_cmp_unsigned : after (run1 [0xA7, 0x00, 0x01] [(0, 0x80), (1, 0x7F)])
    (fun t => t.fl == 0b00000010 && t.reg 0 == 0x80 && t.pc == 0x13) = true := by decide
/-- V-DEC-9 -/
theorem test_order_of_checks : after (run1 [0xA0, 0x09, 0x08] [])
    (fun t => t.run == .stopped 1 (.bounds .regindex)) = true := by decide
/-- V-DEC-6 -/
theorem test_fetch_bound : after (run1At 0xFE [0x82, 0x00] [])
    (fun t => t.run == .stopped 1 (.bounds .fetch) && t.reg 0 == 0 && t.pc == 0xFE) = true := by decide
/-- V-DEC-2 -/
theorem test_unknown_opcode : after (run1 [0xA1, 0x00, 0x01] [])
    (fun t => t.run == .stopped 1 (.decode 0xA1) && t.pc == 0x10 && t.out == [.report (.decode 0xA1)]) = true := by decide

/-! ### Interrupts -/

/-- The state of V-INT-1, with this IE, IM and IS, and one reading of the environment. -/
def pending (ie : Bool) (im is : Byte) (e : EnvInput) : State :=
  let s := start 0x06 [(0, 0x11), (1, 0x22), (2, 0x33), (3, 0x44), (4, 0x55), (5, im), (6, is)]
  { (s.writeBytes 0xF8 [0x40, 0x50, 0x60]) with fl := 0x02, ie := ie, inputs := [e] }

/-- A reading of one second and a bit after reset, no key. -/
def tick : EnvInput := { now := 1000000001, key := none }

/-- V-INT-1 -/
theorem test_timer_entry : (let t := (pending true 0x01 0x00 tick).poll
    (frameCells 0xF4).map t.readByte == [0x06, 0x02, 0x11, 0x22, 0x33, 0x44, 0x55, 0x01, 0x00] && t.reg 7 == 0xEB && t.pc == 0x40 &&
    t.reg 6 == 0 && t.ie == false && t.ltf == 1000000001) = true := by decide
/-- V-INT-2 -/
theorem test_timer_masked : (let t := (pending true 0x00 0x00 tick).poll
    t.reg 6 == 0x01 && t.pc == 0x06 && t.reg 7 == 0xF4 && t.ie) = true := by decide
/-- V-INT-3 -/
theorem test_timer_while_servicing : (let t := (pending false 0x01 0x00 tick).poll
    t.reg 6 == 0x01 && t.pc == 0x06 && t.reg 7 == 0xF4) = true := by decide
/-- V-INT-4 -/
theorem test_timer_and_key : (let t := (pending true 0x03 0x00 { tick with key := some 0x6B }).poll
    t.readByte 0xF4 == 0x6B && t.reg 6 == 0x02 && t.readByte 0xEB == 0x02 && t.pc == 0x40) = true := by decide
/-- V-INT-5 -/
theorem test_masked_line_waits : (let t := (pending true 0x02 0x03 { now := 0, key := none }).poll
    t.reg 6 == 0x01 && t.pc == 0x50) = true := by decide
/-- V-INT-6 -/
theorem test_software_line : (let t := (pending true 0x84 0x84 { now := 0, key := none }).poll
    t.reg 6 == 0x80 && t.pc == 0x60) = true := by decide
/-- V-INT-7 -/
theorem test_key_code_zero : (let t := (pending true 0xFF 0x00 { now := 0, key := some 0x00 }).poll
    t.readByte 0xF4 == 0x00 && t.pc == 0x50 && t.reg 6 == 0x00) = true := by decide
/-- V-INT-8 -/
theorem test_timer_exactly_one_second : (let t := (pending true 0x01 0x00 { now := 1000000000, key := none }).poll
    t.reg 6 == 0x00 && t.ltf == 0) = true := by decide
/-- V-INT-9 -/
theorem test_iret : after (exec .iret ((start 0x15 [(0, 0x99), (6, 0x02), (7, 0xEB)]).writeBytes 0xEB [0x00, 0x01, 0x55, 0x44, 0x33, 0x22, 0x11, 0x02, 0x06]))
    (fun t => (savedRegs.map t.reg) == [0x11, 0x22, 0x33, 0x44, 0x55, 0x01, 0x00] && t.fl == 0x02 && t.pc == 0x06 && t.reg 7 == 0xF4 && t.ie) = true := by decide
/-- V-INT-10 -/
theorem test_iret_outside_handler : after (step ((start 0x10 [(7, 0x00)]).writeBytes 0x00 [1, 2, 3, 4, 5, 6, 7, 8, 9, 0, 0, 0, 0, 0, 0, 0, 0x13]))
    (fun t => (savedRegs.map t.reg) == [7, 6, 5, 4, 3, 2, 1] && t.fl == 0x08 && t.pc == 0x09 && t.reg 7 == 0x09 && t.ie) = true := by decide

/-! ### Reset, boot, the host's word -/

/-- R201: the image from address 0 -/
theorem test_boot : after (boot [0x82, 0x00, 0x08]) (fun t => t.readByte 0 == 0x82 && t.readByte 2 == 0x08 && t.readByte 3 == 0x00 && t.pc == 0) = true := by decide
/-- the placed word is the next instruction, from reset -/
theorem test_with_fetch_word : after (step (State.reset.withFetchWord 24 0xFF0382)) (fun t => t.reg 3 == 0xFF && t.pc == 0x03) = true := by decide
/-- a word that does not fit at pc is placed at 0; a pending request is held off -/
theorem test_with_fetch_word_moves_pc : after (step ((pending true 0x01 0x01 tick).setPc 0xFE |>.withFetchWord 8 0x01)) (fun t => t.run == .stopped 0 .halt && t.pc == 0) = true := by decide
/-- R170 -/
theorem test_cause_codes : (([.halt, .decode 0, .aluop, .divzero, .bounds .fetch] : List Cause).map causeCode == [0, 1, 2, 3, 4] &&
    exitStatus (.stopped 1 .divzero) == some 1 && exitStatus .running == none) = true := by decide

/-! ### Witnesses: what meets the hypotheses of the obligations

Each theorem `witness_X` gives states and operands that meet all hypotheses of `Obligations.X`, or of one of its clauses. -/

/-- `after` means that there is such a next state. -/
theorem of_after {o : Result} {p : State → Bool} (h : after o p = true) : ∃ t, o = .next t ∧ p t = true := by
  cases o with
  | next t => exact ⟨t, rfl, h⟩
  | fault f => cases h
  | refused r => cases h

/-- Three bytes at 0xFD fill memory exactly. -/
theorem witness_StepRunsDecodedInstruction :
    let s := (start 0xFD [(0, 8), (1, 9)]).writeBytes 0xFD [0xA0, 0x00, 0x01]
    s.run = .running ∧ decode s.poll.fetchWindow = .ok (.add 0 1, []) := by decide

theorem witness_StepRunsBytesAtPc :
    let s := (start 0xFD [(0, 8), (1, 9)]).writeBytes 0xFD [0xA0, 0x00, 0x01]
    s.run = .running ∧ s.poll.pc.toNat + (encode (.add 0 1)).length ≤ 256 ∧
      ∀ k, k < (encode (.add 0 1)).length → (encode (.add 0 1))[k]? = some (s.poll.readByte (s.poll.pc + BitVec.ofNat 8 k)) := by
  decide

theorem witness_UnknownOpcodeStopsTheMachine :
    let s := (start 0xFF []).writeBytes 0xFF [0xA1]
    s.run = .running ∧ ∀ i : Instr, i.opcode ≠ s.poll.readByte s.poll.pc :=
  ⟨by decide, fun i => by
    rw [show ((start 0xFF []).writeBytes 0xFF [0xA1]).poll.readByte ((start 0xFF []).writeBytes 0xFF [0xA1]).poll.pc = 0xA1 by decide]
    cases i <;> simp [Instr.opcode]⟩

/-- One operand byte missing of two, and the only one of one. -/
theorem witness_OperandBeyondMemoryStops :
    (let s := (start 0xFE []).writeBytes 0xFE [0x82, 0x00]
     s.run = .running ∧ s.poll.readByte s.poll.pc = (Instr.ldi 0 0).opcode ∧
      s.poll.pc.toNat + nopnd (Instr.ldi 0 0).opcode > 0xFF) ∧
    (let s := (start 0xFF []).writeBytes 0xFF [0x54]
     s.run = .running ∧ s.poll.readByte s.poll.pc = (Instr.jmp 0).opcode ∧
      s.poll.pc.toNat + nopnd (Instr.jmp 0).opcode > 0xFF) := by decide

theorem witness_BadRegisterByteStops : (Instr.ldi 8 0).wf = false ∧ (Instr.add 7 8).wf = false := by decide

theorem witness_StoppedMachineStaysForever : ((start 0 []).halt).run = .stopped 0 .halt := by decide

/-- One stop of each listed cause: HALT, DECODE, DIVZERO, and the three of BOUNDS, the overflow by an advance, by CALL, by JEQ and by
JNE, each at the lowest pc where it happens. -/
theorem witness_OnlyListedStops :
    after (run1 [0x01] []) (fun t => t.run == .stopped 0 .halt) = true ∧
    after (run1 [0x00] []) (fun t => t.run == .stopped 1 (.decode 0)) = true ∧
    after (run1 [0xA4, 0x00, 0x01] []) (fun t => t.run == .stopped 1 .divzero) = true ∧
    after (run1At 0xFE [0x82, 0x00] []) (fun t => t.run == .stopped 1 (.bounds .fetch)) = true ∧
    after (run1 [0x45, 0x08] []) (fun t => t.run == .stopped 1 (.bounds .regindex)) = true ∧
    after (run1At 0xFD [0x82, 0x00, 0x00] []) (fun t => t.run == .stopped 1 (.bounds .pcoverflow)) = true ∧
    after (run1At 0xFE [0x50, 0x00] []) (fun t => t.run == .stopped 1 (.bounds .pcoverflow)) = true ∧
    after (run1At 0xFE [0x55, 0x00] []) (fun t => t.run == .stopped 1 (.bounds .pcoverflow)) = true ∧
    after (step (((start 0xFE []).writeBytes 0xFE [0x56, 0x00]).setFl 1)) (fun t => t.run == .stopped 1 (.bounds .pcoverflow)) = true := by
  decide

/-- The first clause with a division by zero; the second with CALL at 0xFE and JEQ not taken there. -/
theorem witness_FatalConditionsArePrecise :
    after (exec (.mod 0 1) (start 0x10 [])) (fun t => t.run == .stopped 1 .divzero) = true ∧
    (after (exec (.call 1) (start 0xFE [])) (fun t => t.run == .stopped 1 (.bounds .pcoverflow)) = true ∧
      setsPc (Instr.call 1).opcode = true) ∧
    (after (exec (.jeq 1) (start 0xFE [])) (fun t => t.run == .stopped 1 (.bounds .pcoverflow)) = true ∧
      setsPc (Instr.jeq 1).opcode = true) := by decide

/-- V-DEC-7, and a three-byte instruction at 0xFD, the lowest address where it overflows. -/
theorem witness_PcOverflowKeepsEffects :
    (setsPc (Instr.prn 0).opcode = false ∧ Instr.prn 0 ≠ .hlt ∧ (start 0xFE [(0, 5)]).pc.toNat + nopnd (Instr.prn 0).opcode + 1 > 0xFF ∧
      after (exec (.prn 0) ((start 0xFE [(0, 5)]).setPc 0)) (fun t => t.run == .running) = true) ∧
    (setsPc (Instr.st 0 1).opcode = false ∧ (start 0xFD []).pc.toNat + nopnd (Instr.st 0 1).opcode + 1 > 0xFF ∧
      after (exec (.st 0 1) ((start 0xFD []).setPc 0)) (fun t => t.run == .running) = true) := by decide

/-- At 0xFE, with E clear and with E set. -/
theorem witness_JumpOverflowHasNoEffect :
    (start 0xFE []).pc.toNat + 2 > 0xFF ∧ (start 0xFE []).fl.getLsbD 0 = false ∧
    ((start 0xFE []).setFl 1).pc.toNat + 2 > 0xFF ∧ ((start 0xFE []).setFl 1).fl.getLsbD 0 = true := by decide

/-- Every clause: HLT, a plain advance to 0xFF, JMP, CALL, JEQ and JNE both ways, RET, IRET. -/
theorem witness_PcAdvanceRule :
    after (exec .hlt (start 0xFF [])) (fun _ => true) = true ∧
    (after (exec (.ldi (regByte 0) 1) (start 0xFC [])) (fun t => t.run == .running && t.pc == 0xFF) = true ∧
      setsPc (Instr.ldi (regByte 0) 1).opcode = false) ∧
    ([.jmp (regByte 0), .call (regByte 7), .jeq (regByte 0), .jne (regByte 0), .ret, .iret] : List Instr).all (fun i =>
      after (exec i (start 0xFD [])) (fun t => t.run == .running) &&
      after (exec i ((start 0xFD []).setFl 1)) (fun t => t.run == .running)) = true := by decide

/-- A state with memory listed that meets the invariant and steps. -/
theorem witness_StepKeepsInvariant :
    Inv ((start 0x10 []).writeBytes 0x10 [0x45, 0x00]) ∧ after (run1 [0x45, 0x00] []) (fun _ => true) = true :=
  ⟨⟨by decide, show noReport [] = true by decide⟩, by decide⟩

theorem witness_IeWrittenOnlyByEntryAndIret :
    after (exec .iret (start 0 [])) (fun _ => true) = true ∧ after (exec (.add 0 1) (start 0 [])) (fun _ => true) = true ∧
    (pending true 0x01 0x01 tick).reg 5 &&& (pending true 0x01 0x01 tick).reg 6 ≠ 0 := by decide

theorem witness_LtfOnlyForTheTimerPoll : after (exec (.pop 7) (start 0 [])) (fun _ => true) = true := by decide

theorem witness_FlagsWrittenOnlyByCmpAndIret :
    after (exec (.add 0 1) (start 0 [])) (fun _ => true) = true ∧ (∀ ra rb, Instr.add 0 1 ≠ .cmp ra rb) ∧ Instr.add 0 1 ≠ .iret :=
  ⟨by decide, fun _ _ => by simp, by decide⟩

theorem witness_MemoryWrittenOnlyByStoresAndPushes :
    after (exec (.ld 0 1) (start 0 [])) (fun _ => true) = true ∧ (∀ ra rb, Instr.ld 0 1 ≠ .st ra rb) ∧
      (∀ ra, Instr.ld 0 1 ≠ .push ra) ∧ ∀ ra, Instr.ld 0 1 ≠ .call ra :=
  ⟨by decide, fun _ _ => by simp, fun _ => by simp, fun _ => by simp⟩

theorem witness_OneReadingPerCycleAndNoneByInstructions :
    after (exec (.inc 0) (start 0 [])) (fun _ => true) = true ∧ (start 0 []).run = .running ∧
    after (step (start 0 [])) (fun _ => true) = true := by decide

/-- Two events in one step: PRN at 0xFE. -/
theorem witness_OutputIsAppendedAndNeverRead :
    after (run1At 0xFE [0x47, 0x00] []) (fun t => t.out == [.dec 0, .report (.bounds .pcoverflow)]) = true := by decide

/-! The highest pc at which the result statements hold: the hypothesis at its boundary, and the instruction completes there. -/

theorem witness_LdiLoadsImmediate : (start 0xFC []).pc.toNat + 3 ≤ 0xFF ∧
    ([.ldi (regByte 7) 255] : List Instr).all (fun i => after (exec i (start 0xFC [])) (fun t => t.run == .running)) = true := by
  decide
theorem witness_PrnAndPraEmitRegister : (start 0xFD []).pc.toNat + 2 ≤ 0xFF ∧
    ([.prn (regByte 0), .pra (regByte 0)] : List Instr).all (fun i => after (exec i (start 0xFD [])) (fun t => t.run == .running)) = true := by
  decide
theorem witness_PushStoresRegister : (start 0xFD []).pc.toNat + 2 ≤ 0xFF ∧
    ([.push (regByte 7)] : List Instr).all (fun i => after (exec i (start 0xFD [])) (fun t => t.run == .running)) = true := by
  decide
theorem witness_CallPushesReturnAddress : (start 0xFD []).pc.toNat + 2 ≤ 0xFF ∧
    ([.call (regByte 7)] : List Instr).all (fun i => after (exec i (start 0xFD [])) (fun t => t.run == .running)) = true := by
  decide
theorem witness_LdLoadsByte : (start 0xFC []).pc.toNat + 3 ≤ 0xFF ∧
    ([.ld (regByte 0) (regByte 7)] : List Instr).all (fun i => after (exec i (start 0xFC [])) (fun t => t.run == .running)) = true := by
  decide
theorem witness_StStoresByte : (start 0xFC []).pc.toNat + 3 ≤ 0xFF ∧
    ([.st (regByte 7) (regByte 7)] : List Instr).all (fun i => after (exec i (start 0xFC [])) (fun t => t.run == .running)) = true := by
  decide
theorem witness_AddAndMulModulo256 : (start 0xFC []).pc.toNat + 3 ≤ 0xFF ∧
    ([.add (regByte 7) (regByte 7), .mul (regByte 0) (regByte 7)] : List Instr).all (fun i => after (exec i (start 0xFC [])) (fun t => t.run == .running)) = true := by
  decide
theorem witness_AndOrXorBitwise : (start 0xFC []).pc.toNat + 3 ≤ 0xFF ∧
    ([.and (regByte 0) (regByte 7), .or (regByte 0) (regByte 7), .xor (regByte 7) (regByte 7)] : List Instr).all (fun i => after (exec i (start 0xFC [])) (fun t => t.run == .running)) = true := by
  decide
theorem witness_NotIncDecResults : (start 0xFD []).pc.toNat + 2 ≤ 0xFF ∧
    ([.not (regByte 7), .inc (regByte 0), .dec (regByte 0)] : List Instr).all (fun i => after (exec i (start 0xFD [])) (fun t => t.run == .running)) = true := by
  decide
theorem witness_ShiftsByWholeAmount : (start 0xFC []).pc.toNat + 3 ≤ 0xFF ∧
    ([.shl (regByte 0) (regByte 7), .shr (regByte 7) (regByte 7)] : List Instr).all (fun i => after (exec i (start 0xFC [])) (fun t => t.run == .running)) = true := by
  decide
theorem witness_CmpSetsFlags : (start 0xFC []).pc.toNat + 3 ≤ 0xFF ∧
    ([.cmp (regByte 0) (regByte 7)] : List Instr).all (fun i => after (exec i (start 0xFC [])) (fun t => t.run == .running)) = true := by
  decide

theorem witness_NestedPushPopBalances : (0 : RegIdx) ≠ 7 ∧ (6 : RegIdx) ≠ 7 ∧ (start 0xF7 []).pc.toNat + 8 ≤ 0xFF := by decide

/-- POP of a register other than SP. -/
theorem witness_PopLoadsRegister : (start 0xFD []).pc.toNat + 2 ≤ 0xFF ∧ (6 : RegIdx) ≠ 7 := by decide

/-- The state right after CALL has SP and the cell as CALL left them. -/
theorem witness_CallThenRetReturns : ∃ s t h : State, s.pc.toNat + 2 ≤ 0xFF ∧ exec (.call (regByte 1)) s = .next t ∧
    h.reg 7 = t.reg 7 ∧ h.readByte (h.reg 7) = t.readByte (t.reg 7) := by
  obtain ⟨t, ht, -⟩ := of_after (show after (exec (.call (regByte 1)) (start 0xFD [])) (fun _ => true) = true by decide)
  exact ⟨start 0xFD [], t, t, by decide, ht, rfl, rfl⟩

/-- Each of the four clauses, the ones that are not taken at the highest pc. -/
theorem witness_JeqAndJneFollowEqualFlag :
    ((start 0xFF []).setFl 1).fl.getLsbD 0 = true ∧ ((start 0xFD []).fl.getLsbD 0 = false ∧ (start 0xFD []).pc.toNat + 2 ≤ 0xFF) ∧
    (start 0xFF []).fl.getLsbD 0 = false ∧
    (((start 0xFD []).setFl 1).fl.getLsbD 0 = true ∧ ((start 0xFD []).setFl 1).pc.toNat + 2 ≤ 0xFF) := by decide

/-- V-MEM-6 with no key; the highest such address with a key; and the key buffer itself with a key. -/
theorem witness_StoreIsSeenByNextFetch :
    (let s := start 0x10 [(0, 0x13)]
     (s.reg 0).toNat = s.pc.toNat + 3 ∧ after (exec (.st (regByte 0) (regByte 1)) s) (fun t =>
      t.latchRequests.acceptedLine == none && t.nextInput.key == none) = true) ∧
    (let s := { start 0xFC [(0, 0xFF)] with inputs := [{ now := 0, key := some 0x6B }] }
     s.pc.toNat + 3 ≤ 0xFF ∧ (s.reg 0).toNat = s.pc.toNat + 3 ∧ s.reg 0 ≠ 0xF4 ∧
      after (exec (.st (regByte 0) (regByte 1)) s) (fun t => t.latchRequests.acceptedLine == none) = true) ∧
    (let s := { start 0xF1 [(0, 0xF4)] with inputs := [{ now := 0, key := some 0x6B }] }
     (s.reg 0).toNat = s.pc.toNat + 3 ∧ s.reg 0 = 0xF4 ∧ after (exec (.st (regByte 0) (regByte 1)) s) (fun t =>
      t.latchRequests.acceptedLine == none && t.nextInput.key == some 0x6B) = true) := by decide

theorem witness_ModGivesRemainder : (start 0xFC [(1, 1)]).pc.toNat + 3 ≤ 0xFF ∧ (start 0xFC [(1, 1)]).reg 1 ≠ 0 := by decide

theorem witness_ModByZeroStops :
    (start 0xFF []).reg 1 = 0 ∧ (start 0xFF []).run = .running ∧
    after (exec (.mod (regByte 0) (regByte 1)) (start 0xFF [])) (fun t => t.run == .stopped 1 .divzero) = true := by decide

/-- Just over the period, and exactly the period. -/
theorem witness_TimerPollSetsLineZero :
    1000000001 - (start 0 []).ltf > Config.timerPeriod ∧ ¬ 1000000000 - (start 0 []).ltf > Config.timerPeriod := by decide

/-- With a key and without one. -/
theorem witness_KeyboardPollDepositsKey :
    (pending false 0 0 { tick with key := some 0x00 }).nextInput.key = some 0x00 ∧ (pending false 0 0 tick).nextInput.key = none := by
  decide

/-- The lowest line without a source, a register other than IS, a cell other than the key buffer. -/
theorem witness_OnlyTwoLinesHaveSources : 2 ≤ (2 : Fin 8).val ∧ (5 : RegIdx) ≠ 6 ∧ (0xF3 : Byte) ≠ 0xF4 := by decide

/-- V-INT-3 with a key: both polls run while IE is false and all lines are masked. -/
theorem test_polls_run_while_servicing : (let t := (pending false 0x00 0x80 { tick with key := some 0x6B }).poll
    t.reg 6 == 0x83 && t.readByte 0xF4 == 0x6B && t.ltf == 1000000001 && t.pc == 0x06) = true := by decide

/-- Line 7 alone, line 0 with all of them, IE clear, nothing both pending and enabled. -/
theorem witness_LowestEnabledPendingLineIsAccepted :
    (let u := (pending true 0x80 0xFF tick).latchRequests
     u.ie = true ∧ (u.reg 5).getLsbD 7 = true ∧ (u.reg 6).getLsbD 7 = true ∧
      ∀ j : Line, j < 7 → ¬ ((u.reg 5).getLsbD j = true ∧ (u.reg 6).getLsbD j = true)) ∧
    (let u := (pending true 0xFF 0x00 tick).latchRequests
     u.ie = true ∧ (u.reg 5).getLsbD 0 = true ∧ (u.reg 6).getLsbD 0 = true ∧
      ∀ j : Line, j < 0 → ¬ ((u.reg 5).getLsbD j = true ∧ (u.reg 6).getLsbD j = true)) ∧
    (pending false 0xFF 0xFF tick).latchRequests.ie = false ∧
    (pending true 0xAA 0x54 tick).latchRequests.reg 5 &&& (pending true 0xAA 0x54 tick).latchRequests.reg 6 = 0 := by decide

/-- Line 7, with SP so low that the frame wraps. -/
theorem witness_InterruptEntrySavesContext :
    let s := (pending true 0x80 0xFF tick).setReg 7 0x04
    s.ie = true ∧ (s.reg 5).getLsbD 7 = true ∧ (s.reg 6).getLsbD 7 = true ∧
      ∀ j : Line, j < 7 → ¬ ((s.reg 5).getLsbD j = true ∧ (s.reg 6).getLsbD j = true) := by decide

/-- A handler that changed register 0, FL and IS. -/
theorem witness_HandlerEndingInIretRestoresContext : ∃ (s h : State) (i : Line), h.reg 7 = (s.enterInterrupt i).reg 7 ∧
    ∀ a, a ∈ frameCells (s.reg 7) → h.readByte a = (s.enterInterrupt i).readByte a := by
  refine ⟨start 0x06 [(5, 1), (6, 1)],
    ((((start 0x06 [(5, 1), (6, 1)]).enterInterrupt 0).setReg 0 0x99).setFl 1).setReg 6 2, 0, by simp, fun a _ => ?_⟩
  rw [State.setReg_readByte, State.setFl_readByte, State.setReg_readByte]

theorem witness_SimultaneousRequestsServeTimerFirst :
    let s := pending true 0x03 0x00 { tick with key := some 0x6B }
    s.ie = true ∧ (s.reg 5).getLsbD 0 = true ∧ s.nextInput.now - s.ltf > Config.timerPeriod ∧ s.nextInput.key = some 0x6B := by
  decide

/-- The longest image that fits and the shortest that does not. -/
theorem witness_BootPlacesImage :
    (List.replicate 256 (0 : Byte)).length ≤ 256 ∧ (List.replicate 257 (0 : Byte)).length > 256 :=
  ⟨List.length_replicate.le, by rw [List.length_replicate]; decide⟩

theorem witness_FirstFetchIsAtAddressZero : after (boot [0x01]) (fun _ => true) = true := by decide

end Sys2Proof.Tests
end

section
/-! PROOFS. The fields that no instruction computes with: IE and LTF (spec R15, R16, R21) and the model's own record of the
environment (R8, log 1). An operation does the same whatever they hold, and IRET and interrupt entry write IE alone of them.
Settles O18 and O19. -/

namespace Sys2Proof.Machine

/-- `s` with its hidden fields taken from `h`: IE, LTF, the readings to come and the cycle count. -/
def State.withHidden (s h : State) : State :=
  { s with ie := h.ie, ltf := h.ltf, inputs := h.inputs, cycle := h.cycle }

section Operations

variable (s h : State)

theorem State.withHidden_self : s.withHidden s = s := rfl
theorem State.setIe_eq_withHidden (b : Bool) : s.setIe b = s.withHidden (s.setIe b) := rfl
theorem State.setLtf_eq_withHidden (n : Time) : s.setLtf n = s.withHidden (s.setLtf n) := rfl

/-! ### What is read past the hidden fields -/

@[simp] theorem State.withHidden_pc : (s.withHidden h).pc = s.pc := rfl
@[simp] theorem State.withHidden_fl : (s.withHidden h).fl = s.fl := rfl
@[simp] theorem State.withHidden_ie : (s.withHidden h).ie = h.ie := rfl
@[simp] theorem State.withHidden_ltf : (s.withHidden h).ltf = h.ltf := rfl
@[simp] theorem State.withHidden_inputs : (s.withHidden h).inputs = h.inputs := rfl
@[simp] theorem State.withHidden_cycle : (s.withHidden h).cycle = h.cycle := rfl
@[simp] theorem State.withHidden_reg (r : RegIdx) : (s.withHidden h).reg r = s.reg r := rfl
@[simp] theorem State.withHidden_readByte (a : Byte) : (s.withHidden h).readByte a = s.readByte a := rfl

theorem State.ite_withHidden (c : Prop) [Decidable c] (t : State) :
    (if c then s else t).withHidden h = if c then s.withHidden h else t.withHidden h :=
  apply_ite (State.withHidden · h) c s t

/-! ### Every operation of an instruction passes the hidden fields through -/

@[simp] theorem State.setReg_withHidden (i : RegIdx) (v : Byte) :
    (s.withHidden h).setReg i v = (s.setReg i v).withHidden h := rfl
@[simp] theorem State.setPc_withHidden (v : Byte) : (s.withHidden h).setPc v = (s.setPc v).withHidden h := rfl
@[simp] theorem State.setFl_withHidden (v : Byte) : (s.withHidden h).setFl v = (s.setFl v).withHidden h := rfl
@[simp] theorem State.writeByte_withHidden (a v : Byte) :
    (s.withHidden h).writeByte a v = (s.writeByte a v).withHidden h := rfl
@[simp] theorem State.emit_withHidden (e : Event) : (s.withHidden h).emit e = (s.emit e).withHidden h := rfl
@[simp] theorem State.halt_withHidden : (s.withHidden h).halt = s.halt.withHidden h := rfl
@[simp] theorem State.raise_withHidden (c : Cause) : (s.withHidden h).raise c = (s.raise c).withHidden h := rfl
@[simp] theorem State.push_withHidden (v : Byte) : (s.withHidden h).push v = (s.push v).withHidden h := rfl
@[simp] theorem State.popReg_withHidden (i : RegIdx) : (s.withHidden h).popReg i = (s.popReg i).withHidden h := rfl
@[simp] theorem State.popFl_withHidden : (s.withHidden h).popFl = s.popFl.withHidden h := rfl
@[simp] theorem State.popPc_withHidden : (s.withHidden h).popPc = s.popPc.withHidden h := rfl

@[simp] theorem State.advance_withHidden (n : Nat) : (s.withHidden h).advance n = (s.advance n).withHidden h := by
  rcases s.advance_cases n with ⟨hn, e⟩ | ⟨hn, e⟩
  · rw [e]; exact State.advance_of_le hn
  · rw [e]; exact State.advance_of_gt hn

@[simp] theorem State.jumpIf_withHidden (taken : Bool) (r : RegIdx) :
    (s.withHidden h).jumpIf taken r = (s.jumpIf taken r).withHidden h := by
  cases taken
  · exact s.advance_withHidden h 2
  · rfl

@[simp] theorem State.popRegs_withHidden (rs : List RegIdx) :
    rs.foldl State.popReg (s.withHidden h) = (rs.foldl State.popReg s).withHidden h := by
  induction rs generalizing s with
  | nil => rfl
  | cons r rs ih => rw [List.foldl_cons, State.popReg_withHidden, ih, List.foldl_cons]

/-- The return from an interrupt sets IE, whatever it held. -/
theorem State.returnFromInterrupt_withHidden :
    (s.withHidden h).returnFromInterrupt = s.returnFromInterrupt.withHidden (h.setIe true) := by
  rw [State.returnFromInterrupt, State.popRegs_withHidden, State.popFl_withHidden, State.popPc_withHidden]
  rfl

end Operations

/-! ### Instructions -/

section Instructions

variable {s t h : State}

theorem withReg_withHidden {a : Byte} {k k' : RegIdx → State} (e : withReg a s k = .next t)
    (hk : ∀ r, k' r = (k r).withHidden h) : withReg a (s.withHidden h) k' = .next (t.withHidden h) := by
  rcases withReg_cases e with ⟨r, rfl, rfl⟩ | ⟨hb, rfl⟩
  · rw [withReg_regByte, hk]
  · rw [withReg_bad hb, State.raise_withHidden]

theorem withRegs_withHidden {a b : Byte} {k k' : RegIdx → RegIdx → State} (e : withRegs a b s k = .next t)
    (hk : ∀ r q, k' r q = (k r q).withHidden h) : withRegs a b (s.withHidden h) k' = .next (t.withHidden h) := by
  rcases withRegs_cases e with ⟨r, q, rfl, rfl, rfl⟩ | ⟨hb, rfl⟩
  · rw [withRegs_regByte, hk]
  · rw [withRegs_bad hb, State.raise_withHidden]

theorem aluUnary_withHidden {f : Byte → Byte} {a : Byte} (e : aluUnary f a s = .next t) :
    aluUnary f a (s.withHidden h) = .next (t.withHidden h) :=
  withReg_withHidden e fun r => by simp

theorem aluBinary_withHidden {f : Byte → Byte → Byte} {a b : Byte} (e : aluBinary f a b s = .next t) :
    aluBinary f a b (s.withHidden h) = .next (t.withHidden h) :=
  withRegs_withHidden e fun r q => by simp

/-- An instruction other than IRET neither reads nor writes a hidden field. -/
theorem exec_withHidden_of_ne_iret {i : Instr} (hi : i ≠ .iret) (e : exec i s = .next t) :
    exec i (s.withHidden h) = .next (t.withHidden h) := by
  cases i with
  | ldi a imm => exact withReg_withHidden e fun r => by simp
  | prn a => exact withReg_withHidden e fun r => by simp
  | pra a => exact withReg_withHidden e fun r => by simp
  | hlt => cases e; rfl
  | push a => exact withReg_withHidden e fun r => by simp
  | pop a => exact withReg_withHidden e fun r => by simp
  | call a => exact withReg_withHidden e fun r => by simp [State.ite_withHidden]
  | ret => cases e; rfl
  | jmp a => exact withReg_withHidden e fun r => by simp
  | jeq a => exact withReg_withHidden e fun r => by simp
  | jne a => exact withReg_withHidden e fun r => by simp
  | ld a b => exact withRegs_withHidden e fun r q => by simp
  | st a b => exact withRegs_withHidden e fun r q => by simp
  | mod a b => exact withRegs_withHidden e fun r q => by simp [State.ite_withHidden]
  | cmp a b => exact withRegs_withHidden e fun r q => by simp
  | not a | inc a | dec a => exact aluUnary_withHidden e
  | add a b | mul a b | and a b | or a b | xor a b | shl a b | shr a b => exact aluBinary_withHidden e
  | iret => exact absurd rfl hi

/-- Every instruction does the same whatever the hidden fields hold, and IRET sets IE. -/
theorem exec_withHidden {i : Instr} (e : exec i s = .next t) :
    exec i (s.withHidden h) = .next (t.withHidden (if i = .iret then h.setIe true else h)) := by
  by_cases hi : i = .iret
  · subst hi
    have ht : s.returnFromInterrupt = t := Host.Outcome.next.inj e
    rw [if_pos rfl, ← ht, ← State.returnFromInterrupt_withHidden]
    rfl
  · rw [if_neg hi]
    exact exec_withHidden_of_ne_iret hi e

/-- The hidden fields after an instruction: those before it, IE set by IRET. -/
theorem exec_hidden {i : Instr} (e : exec i s = .next t) :
    t = t.withHidden (if i = .iret then s.setIe true else s) := by
  have same := exec_withHidden (h := s) e
  rw [State.withHidden_self, e] at same
  exact Host.Outcome.next.inj same

theorem exec_ie {i : Instr} (e : exec i s = .next t) : t.ie = if i = .iret then true else s.ie := by
  rw [exec_hidden e, State.withHidden_ie, apply_ite State.ie, State.setIe_ie]

theorem exec_ltf {i : Instr} (e : exec i s = .next t) : t.ltf = s.ltf := by
  rw [exec_hidden e, State.withHidden_ltf, apply_ite State.ltf, State.setIe_ltf, ite_self]

theorem exec_setIe {i : Instr} (e : exec i s = .next t) (b : Bool) :
    exec i (s.setIe b) = .next (t.setIe (if i = .iret then true else b)) := by
  rw [State.setIe_eq_withHidden, exec_withHidden e, exec_hidden e]
  split <;> rfl

theorem exec_setLtf {i : Instr} (e : exec i s = .next t) (n : Time) :
    exec i (s.setLtf n) = .next (t.setLtf n) := by
  rw [State.setLtf_eq_withHidden, exec_withHidden e, exec_hidden e]
  split <;> rfl

end Instructions

/-! ### The polls and interrupt entry -/

section Polls

variable (s : State)

theorem State.keyboardPoll_setLtf (k : Option Byte) (n : Time) :
    (s.setLtf n).keyboardPoll k = (s.keyboardPoll k).setLtf n := by cases k <;> rfl

theorem State.latchRequests_ie : s.latchRequests.ie = s.ie := by
  rw [State.latchRequests, State.keyboardPoll_ie, State.timerPoll_ie, State.consumeInput_ie]

/-- Entry overwrites IE and saves only other fields. -/
theorem State.enterInterrupt_setIe (b : Bool) (i : Line) : (s.setIe b).enterInterrupt i = s.enterInterrupt i := rfl

theorem State.enterInterrupt_setLtf (n : Time) (i : Line) :
    (s.setLtf n).enterInterrupt i = (s.enterInterrupt i).setLtf n := rfl

theorem State.acceptedLine_setLtf (n : Time) : (s.setLtf n).acceptedLine = s.acceptedLine := rfl
theorem State.acceptedLine_setIe_false : (s.setIe false).acceptedLine = none := rfl
theorem State.acceptedLine_setIe_true : (s.setIe true).acceptedLine = lowestLine s.maskedPending := rfl

theorem State.interruptAccept_of_none {s : State} (h : s.acceptedLine = none) : s.interruptAccept = s := by
  rw [State.interruptAccept, h]

theorem State.interruptAccept_of_some {s : State} {i : Line} (h : s.acceptedLine = some i) :
    s.interruptAccept = s.enterInterrupt i := by
  rw [State.interruptAccept, h]

/-- The accept step clears IE exactly when it accepts a line. -/
theorem State.interruptAccept_ie : s.interruptAccept.ie = if s.acceptedLine = none then s.ie else false := by
  rcases s.interruptAccept_cases with ⟨hn, e⟩ | ⟨i, hi, e⟩
  · rw [e, if_pos hn]
  · rw [e, if_neg (by simp [hi]), State.enterInterrupt_ie]

theorem State.interruptAccept_ltf : s.interruptAccept.ltf = s.ltf := by
  rcases s.interruptAccept_cases with ⟨_, e⟩ | ⟨i, _, e⟩
  · rw [e]
  · rw [e, State.enterInterrupt_ltf]

theorem State.interruptAccept_setLtf (n : Time) :
    (s.setLtf n).interruptAccept = s.interruptAccept.setLtf n := by
  rcases s.interruptAccept_cases with ⟨hn, e⟩ | ⟨i, hi, e⟩
  · rw [e, State.interruptAccept_of_none (s.acceptedLine_setLtf n ▸ hn)]
  · rw [e, State.interruptAccept_of_some (s.acceptedLine_setLtf n ▸ hi), State.enterInterrupt_setLtf]

/-- With IE set, a masked pending bit is enough for some line's entry. -/
theorem State.interruptAccept_setIe_true (h : s.maskedPending ≠ 0) :
    ∃ i, (s.setIe true).interruptAccept = s.enterInterrupt i := by
  obtain ⟨i, hi⟩ := Option.ne_none_iff_exists'.1 (mt lowestLine_eq_none.1 h)
  exact ⟨i, (State.interruptAccept_of_some (s.acceptedLine_setIe_true.trans hi)).trans (s.enterInterrupt_setIe true i)⟩

theorem State.poll_ltf : s.poll.ltf = (s.timerPoll s.nextInput.now).ltf := by
  rw [State.poll, State.interruptAccept_ltf, State.latchRequests_ltf, State.timerPoll_ltf]

end Polls

/-- Settles O18: IE is a hidden field, which an instruction passes through unless it is IRET, and the accept test alone
reads. -/
theorem ieWrittenOnlyByEntryAndIret : Obligations.IeWrittenOnlyByEntryAndIret := by
  refine ⟨fun i s t e => ⟨exec_ie e, exec_setIe e⟩, fun s => ⟨s.latchRequests_ie, ?_⟩,
    fun s l b => s.enterInterrupt_setIe b l,
    fun s => ⟨State.interruptAccept_of_none s.acceptedLine_setIe_false, s.interruptAccept_setIe_true⟩⟩
  rw [State.poll, State.interruptAccept_ie, State.latchRequests_ie]

/-- Settles O19: LTF is a hidden field, which instructions, the keyboard poll and the accept step pass through, so that the
cycle's timer poll alone determines it. -/
theorem ltfOnlyForTheTimerPoll : Obligations.LtfOnlyForTheTimerPoll :=
  ⟨fun _ _ _ e => ⟨exec_ltf e, exec_setLtf e⟩,
    fun s k n => ⟨s.keyboardPoll_ltf k, s.keyboardPoll_setLtf k n⟩,
    fun s n => ⟨s.interruptAccept_ltf, s.interruptAccept_setLtf n⟩,
    State.poll_ltf⟩

end Sys2Proof.Machine
end

section
/-! PROOFS. The stack manager's two primitives (spec/42_stack.md R100, R101, R104): where SP goes, what the top is, and the
frame of each. Settles O30 and O31. -/

namespace Sys2Proof.Machine

section Stack
variable (s : State) (v : Byte)

/-! ### SP modulo 256 -/

theorem State.push_sp : (s.push v).reg 7 = s.reg 7 - 1 := by
  rw [State.reg_push, if_pos spReg_eq.symm, spReg_eq]

theorem State.dropTop_sp : s.dropTop.reg 7 = s.reg 7 + 1 := by
  rw [State.reg_dropTop, if_pos spReg_eq.symm, spReg_eq]

theorem State.push_sp_toNat : ((s.push v).reg 7).toNat = ((s.reg 7).toNat + 255) % 256 := by
  rw [State.push_sp]; bv_omega

theorem State.dropTop_sp_toNat : (s.dropTop.reg 7).toNat = ((s.reg 7).toNat + 1) % 256 := by
  rw [State.dropTop_sp]; bv_omega

/-! ### A push is undone by the next pop -/

theorem State.top_push : (s.push v).top = v := by
  rw [State.top, spReg_eq, State.readByte_push, spReg_eq, if_pos (s.push_sp v)]

theorem State.dropTop_push_sp : (s.push v).dropTop.reg 7 = s.reg 7 := by
  rw [State.dropTop_sp, State.push_sp, BitVec.sub_add_cancel]

/-! ### What each primitive leaves alone -/

theorem State.push_frame : Frame [7] [(s.push v).reg 7] s (s.push v) where
  regs r hr := (s.reg_push v r).trans (if_neg (List.ne_of_not_mem_cons hr))
  mem a ha := (s.readByte_push a v).trans (if_neg ((s.push_sp v) ▸ List.ne_of_not_mem_cons ha))
  ie := s.push_ie v
  ltf := s.push_ltf v
  run := s.push_run v
  inputs := s.push_inputs v
  cycle := s.push_cycle v

theorem State.dropTop_frame : Frame [7] [] s s.dropTop where
  regs r hr := (s.reg_dropTop r).trans (if_neg (List.ne_of_not_mem_cons hr))
  mem a _ := s.dropTop_readByte a
  ie := s.dropTop_ie
  ltf := s.dropTop_ltf
  run := s.dropTop_run
  inputs := s.dropTop_inputs
  cycle := s.dropTop_cycle

end Stack

/-- Settles O30: SP goes down by one, the byte is the new top, and the frame is SP and the cell it now points at. -/
theorem pushPrimitive : Obligations.PushPrimitive := fun s v =>
  ⟨s.push_sp_toNat v, s.top_push v, s.push_frame v, s.push_pc v, s.push_fl v, s.push_out v⟩

/-- Settles O31: `Pop()` is the top with SP moved up by one; after a push both are what the push was given. -/
theorem popPrimitive : Obligations.PopPrimitive := fun s =>
  ⟨rfl, s.dropTop_sp_toNat, s.dropTop_frame, s.dropTop_pc, s.dropTop_fl, s.dropTop_out,
    fun v => ⟨s.top_push v, s.dropTop_push_sp v⟩⟩

end Sys2Proof.Machine
end

section
/-! PROOFS. Fatal conditions (spec/60_exceptions.md R171, R173, R175): a byte that is no opcode stops the cycle after its
poll, and division by zero is MOD's alone. Settles O6 and O46. -/

namespace Sys2Proof.Machine

/-- `raise` does what R175 says of a fatal condition. -/
theorem State.raise_raised (s : State) (c : Cause) : Raised c s (s.raise c) := rfl

/-! ### Unknown opcodes -/

theorem lookupOpcode_eq_none {op : Byte} (h : ∀ i : Instr, i.opcode ≠ op) : lookupOpcode op = none :=
  Option.eq_none_iff_forall_ne_some.2 fun _ hs =>
    have ⟨⟨i, hi⟩, _⟩ := lookupOpcode_some hs
    h i hi

/-- The opcode is looked up before any operand byte is looked at (R57). -/
theorem decode_of_lookupOpcode_none {op : Byte} (h : lookupOpcode op = none) (rest : List Byte) :
    decode (op :: rest) = .error (.unknownOpcode op) := by
  simp only [decode, h]

theorem step_of_running {s : State} (h : s.run = .running) : step s = fetchAndExec s.poll := by
  rw [step, runCycle, h]

theorem fetchAndExec_of_lookupOpcode_none {s : State} (h : lookupOpcode (s.readByte s.pc) = none) :
    fetchAndExec s = .next (s.raise (.decode (s.readByte s.pc))) := by
  obtain ⟨rest, hw⟩ := s.fetchWindow_cons
  rw [fetchAndExec, hw, decode_of_lookupOpcode_none h]

/-- Settles O6: the byte is in no row of the opcode table, so decoding refuses it and the polled state takes the stop. -/
theorem unknownOpcodeStopsTheMachine : Obligations.UnknownOpcodeStopsTheMachine := fun s hrun hop =>
  ⟨_, (step_of_running hrun).trans (fetchAndExec_of_lookupOpcode_none (lookupOpcode_eq_none hop)),
    s.poll.raise_raised _⟩

/-! ### Division by zero -/

theorem exec_mod_of_zero {r q : RegIdx} {s : State} (h : s.reg q = 0) :
    exec (.mod (regByte r) (regByte q)) s = .next (s.raise .divzero) := by
  rw [exec, execMod, withRegs_regByte, if_pos h]

section DivisionByZero

variable {s t : State} {n : Fin 2}

/-- The advance of a running machine stops at most with an overflow. -/
theorem State.not_running_of_advance_divzero {k : Nat} (h : (s.advance k).run = .stopped n .divzero) :
    s.run ≠ .running := by
  rcases s.advance_cases k with ⟨_, e⟩ | ⟨_, e⟩ <;> rw [e] at h
  · rw [State.setPc_run] at h; simp [h]
  · simp at h

theorem State.not_running_of_jumpIf_divzero {taken : Bool} {r : RegIdx}
    (h : (s.jumpIf taken r).run = .stopped n .divzero) : s.run ≠ .running := by
  rcases s.jumpIf_cases taken r with ⟨_, e⟩ | ⟨_, e⟩ <;> rw [e] at h
  · rw [State.setPc_run] at h; simp [h]
  · exact State.not_running_of_advance_divzero h

/-- Only MOD with a zero divisor stops a running machine with division by zero: the other rules end in the advance, in a stop
of another cause, or in a new pc with the machine still running. -/
theorem ExecTo.mod_of_divzero {i : Instr} (e : ExecTo s i t) (hs : s.run = .running) (ht : t.run = .stopped n .divzero) :
    ∃ r q, i = .mod (regByte r) (regByte q) ∧ s.reg q = 0 := by
  cases e with
  | modZero r q hq => exact ⟨r, q, rfl, hq⟩
  | badReg | callOverflow | hlt => simp at ht
  | call | ret | jmp | iret => simp [hs, State.popPc] at ht
  | jeq | jne => exact (State.not_running_of_jumpIf_divzero ht hs).elim
  | ldi | prn | pra | push | pop | ld | st | add | mul | and | or | xor | not | shl | shr | mod | inc | dec | cmp =>
    exact (State.not_running_of_advance_divzero ht hs).elim

end DivisionByZero

/-- Settles O46: MOD checks its divisor before any effect, and the inversion lemma of `exec` shows no other source. -/
theorem modByZeroStops : Obligations.ModByZeroStops :=
  ⟨fun _ _ s hq => ⟨_, exec_mod_of_zero hq, s.raise_raised _⟩,
    fun _ _ _ _ hs e ht => (exec_next e).mod_of_divzero hs ht⟩

end Sys2Proof.Machine
end

section
/-! PROOFS. The keyboard poll, the accept test and interrupt entry (spec/60_exceptions.md R180 to R183). Settles O49, O51 and
O52. -/

namespace Sys2Proof.Machine

/-! ### The keyboard poll -/

section Keyboard

variable (s : State) (k : Byte)

theorem State.keyboardPoll_some_is (j : Fin 8) :
    ((s.keyboardPoll (some k)).reg 6).getLsbD j = (decide (j = 1) || (s.reg 6).getLsbD j) := by
  rw [State.keyboardPoll_reg, if_pos ⟨isReg_eq.symm, rfl⟩, getLsbD_putBit, isReg_eq]
  by_cases h : j = 1 <;> simp [h]

theorem State.keyboardPoll_some_frame : Frame [6] [0xF4] s (s.keyboardPoll (some k)) where
  regs r hr := (s.keyboardPoll_reg _ r).trans (if_neg fun h => List.ne_of_not_mem_cons hr h.1)
  mem a ha := (s.keyboardPoll_readByte _ a).trans (if_neg (List.ne_of_not_mem_cons ha))
  ie := s.keyboardPoll_ie _
  ltf := s.keyboardPoll_ltf _
  run := s.keyboardPoll_run _
  inputs := s.keyboardPoll_inputs _
  cycle := s.keyboardPoll_cycle _

/-- The key buffer after both polls: the cycle's key, if there is one. -/
theorem State.latchRequests_keyBuf : s.latchRequests.readByte 0xF4 = s.nextInput.key.getD (s.readByte 0xF4) :=
  (s.latchRequests_readByte _).trans (if_pos keyBuf_eq.symm)

/-- IS bit 1 after both polls: only a key sets it. -/
theorem State.latchRequests_keyLine :
    (s.latchRequests.reg 6).getLsbD 1 = (s.nextInput.key.isSome || (s.reg 6).getLsbD 1) := by
  simpa using s.latchRequests_is 1

end Keyboard

/-- Settles O49: the poll's two writes, and their result read after the timer poll of the same cycle. -/
theorem keyboardPollDepositsKey : Obligations.KeyboardPollDepositsKey := by
  refine fun s => ⟨fun k => ⟨?_, s.keyboardPoll_some_is k, s.keyboardPoll_some_frame k, s.keyboardPoll_pc _,
    s.keyboardPoll_fl _, s.keyboardPoll_out _⟩, rfl, fun k hk => ?_, fun hk => ?_⟩
  · exact (s.keyboardPoll_readByte _ _).trans (if_pos keyBuf_eq.symm)
  · rw [s.latchRequests_keyBuf, s.latchRequests_keyLine, hk]
    exact ⟨rfl, rfl⟩
  · rw [s.latchRequests_keyBuf, s.latchRequests_keyLine, hk]
    exact ⟨rfl, rfl⟩

/-! ### The accept test -/

/-- A line is accepted exactly when IE is set and it is the lowest one both pending and enabled (R181, R182). -/
theorem State.acceptedLine_eq_some {s : State} {i : Line} : s.acceptedLine = some i ↔
    s.ie = true ∧ (s.reg 5).getLsbD i = true ∧ (s.reg 6).getLsbD i = true ∧
      ∀ j : Line, j < i → ¬ ((s.reg 5).getLsbD j = true ∧ (s.reg 6).getLsbD j = true) := by
  rw [State.acceptedLine]
  cases s.ie <;> simp [lowestLine_eq_some, State.maskedPending, and_assoc]

theorem State.acceptedLine_of_ie_false {s : State} (h : s.ie = false) : s.acceptedLine = none := by
  rw [State.acceptedLine, h]; rfl

theorem State.acceptedLine_of_none_pending {s : State} (h : s.reg 5 &&& s.reg 6 = 0) : s.acceptedLine = none := by
  rw [State.acceptedLine, State.maskedPending, lowestLine_eq_none.2 h, ite_self]

/-- Entry clears the accepted line's bit of IS and no other. -/
theorem State.enterInterrupt_is (s : State) (i : Line) (k : Fin 8) :
    ((s.enterInterrupt i).reg 6).getLsbD k = ((s.reg 6).getLsbD k && decide (k ≠ i)) := by
  rw [State.enterInterrupt_reg, if_neg (by decide), if_pos rfl, getLsbD_putBit]
  by_cases h : k = i <;> simp [h]

/-- Settles O51: the accept test picks the lowest line, and entry clears its bit alone. -/
theorem lowestEnabledPendingLineIsAccepted : Obligations.LowestEnabledPendingLineIsAccepted := by
  rintro s _ rfl
  refine ⟨fun i hie him his hlow => ?_, fun hie => ?_, fun hnone => ?_⟩
  · have entered : s.poll = s.latchRequests.enterInterrupt i :=
      State.interruptAccept_of_some (State.acceptedLine_eq_some.2 ⟨hie, him, his, hlow⟩)
    exact ⟨entered, fun k hk => by
      rw [entered, State.enterInterrupt_is, decide_eq_true hk, Bool.and_true]⟩
  · exact State.poll_of_none (State.acceptedLine_of_ie_false hie)
  · exact State.poll_of_none (State.acceptedLine_of_none_pending hnone)

/-! ### Interrupt entry -/

section Entry

variable (s : State) (i : Line)

/-- The cells of the frame are counted down from SP. -/
theorem frameCells_eq_map (sp : Byte) : frameCells sp = (List.range 9).map fun k => sp - BitVec.ofNat 8 (k + 1) := rfl

theorem State.enterInterrupt_sp_toNat : ((s.enterInterrupt i).reg 7).toNat = ((s.reg 7).toNat + 247) % 256 := by
  rw [State.enterInterrupt_reg, if_pos rfl]
  bv_omega

/-- The vector is read as the pushes left memory. -/
theorem State.enterInterrupt_pc : (s.enterInterrupt i).pc = (s.enterInterrupt i).readByte (vectorAddr i) := rfl

/-- The nine cells hold the context, IS with the accepted bit cleared. -/
theorem State.enterInterrupt_frameCells : (frameCells (s.reg 7)).map (s.enterInterrupt i).readByte =
    [s.pc, s.fl, s.reg 0, s.reg 1, s.reg 2, s.reg 3, s.reg 4, s.reg 5, (s.enterInterrupt i).reg 6] := by
  calc (frameCells (s.reg 7)).map (s.enterInterrupt i).readByte
      = ((s.putIs i false).setIe false).frame := by
        refine List.ext_getElem rfl fun k hk _ => ?_
        simp only [frameCells_eq_map, List.getElem_map, List.getElem_range]
        exact s.enterInterrupt_readByte_at i k hk
    _ = _ := by simp [State.frame, savedRegs, isReg_eq, State.enterInterrupt_reg]

theorem State.enterInterrupt_readByte_out {a : Byte} (h : a ∉ frameCells (s.reg 7)) :
    (s.enterInterrupt i).readByte a = s.readByte a := by
  refine State.pushAll_readByte_out ((s.putIs i false).setIe false) _ a fun k hk e => h ?_
  have sp : ((s.putIs i false).setIe false).reg Config.spReg = s.reg 7 := by simp [isReg_eq, spReg_eq]
  rw [frameCells_eq_map]
  exact List.mem_map.2 ⟨k, List.mem_range.2 hk, sp ▸ e.symm⟩

end Entry

/-- Settles O52: the accepted line is `i`, and each clause is a rule of its entry. -/
theorem interruptEntrySavesContext : Obligations.InterruptEntrySavesContext := by
  rintro s _ i hie him his hlow rfl
  rw [State.interruptAccept_of_some (State.acceptedLine_eq_some.2 ⟨hie, him, his, hlow⟩)]
  refine ⟨s.enterInterrupt_is i, s.enterInterrupt_sp_toNat i, fun r h6 h7 => ?_, s.enterInterrupt_ie i,
    s.enterInterrupt_fl i, s.enterInterrupt_frameCells i, fun a => s.enterInterrupt_readByte_out i,
    s.enterInterrupt_pc i, s.enterInterrupt_ltf i, s.enterInterrupt_run i, s.enterInterrupt_out i,
    s.enterInterrupt_inputs i, s.enterInterrupt_cycle i⟩
  rw [State.enterInterrupt_reg, if_neg h7, if_neg h6]

end Sys2Proof.Machine
end

section
/-! PROOFS. The encoding (spec/30_encoding.md R50 to R58): the opcode table against the encoder, row by row. Settles O1, O2
and O3. -/

namespace Sys2Proof

/-- A row of the opcode table takes the operand bytes of its format and encodes to the opcode byte followed by them (R52). -/
def OpShape.Encodes (op : Byte) : OpShape → Prop
  | .z i => encode i = [op]
  | .r f => ∀ a, encode (f a) = [op, a]
  | .rr f => ∀ a b, encode (f a b) = [op, a, b]

theorem opcodeTable_encodes : ∀ row ∈ opcodeTable, row.2.Encodes row.1 := by
  simp [opcodeTable, OpShape.Encodes, encode, Instr.opcode, Instr.operandBytes]

theorem encodes_of_lookupOpcode {op : Byte} {sh : OpShape} (h : lookupOpcode op = some sh) : sh.Encodes op := by
  obtain ⟨before, after, rows, _⟩ := List.lookup_eq_some_iff.1 h
  exact opcodeTable_encodes (op, sh) (by simp [rows])

theorem decode_encode (i : Instr) (rest : List Byte) : decode (encode i ++ rest) = .ok (i, rest) := by
  cases i <;> rfl

/-- What decodes is the encoding of the instruction, with the bytes after it. -/
theorem eq_encode_of_decode {bs : List Byte} {i : Instr} {rest : List Byte} (h : decode bs = .ok (i, rest)) :
    bs = encode i ++ rest := by
  rcases bs with _ | ⟨op, operands⟩
  · cases h
  cases hl : lookupOpcode op with
  | none => simp only [decode, hl] at h; cases h
  | some sh =>
    have row := encodes_of_lookupOpcode hl
    simp only [decode, hl] at h
    rcases sh with j | f | f
    · cases h; rw [row]; rfl
    · rcases operands with _ | ⟨a, _⟩ <;> cases h
      rw [row]; rfl
    · rcases operands with _ | ⟨a, _ | ⟨b, _⟩⟩ <;> cases h
      rw [row]; rfl

/-- Settles O1: the decoder undoes the encoder, and every row of the opcode table encodes to what it was decoded from. -/
theorem decodeAndEncodeAgree : Obligations.DecodeAndEncodeAgree := fun _ i rest =>
  ⟨eq_encode_of_decode, fun h => h ▸ decode_encode i rest⟩

/-! ### Unlisted opcodes -/

theorem unknownOpcode_iff {op : Byte} {rest : List Byte} :
    decode (op :: rest) = .error (.unknownOpcode op) ↔ lookupOpcode op = none := by
  refine ⟨fun h => ?_, fun h => Machine.decode_of_lookupOpcode_none h rest⟩
  rcases Machine.decode_error h with ⟨_, hl⟩ | ⟨e, _⟩
  · exact hl
  · cases e

theorem lookupOpcode_opcode_ne_none (i : Instr) : lookupOpcode i.opcode ≠ none := by cases i <;> nofun

theorem lookupOpcode_eq_none_iff {op : Byte} : lookupOpcode op = none ↔ ∀ i : Instr, i.opcode ≠ op :=
  ⟨fun h i hi => lookupOpcode_opcode_ne_none i (hi ▸ h), Machine.lookupOpcode_eq_none⟩

/-- The bytes of the opcode table, as numbers below 256. -/
def opcodeNumbers : List (Fin 256) := opcodeTable.map fun row => row.1.toFin

theorem opcodeNumbers_nodup : opcodeNumbers.Nodup := by decide

theorem mem_opcodeNumbers {k : Fin 256} : k ∈ opcodeNumbers ↔ lookupOpcode (BitVec.ofFin k) ≠ none := by
  simp only [opcodeNumbers, lookupOpcode, ne_eq, List.lookup_eq_none_iff, List.mem_map]
  constructor
  · rintro ⟨row, hr, rfl⟩ h
    simpa using h row hr
  · intro h
    push Not at h
    obtain ⟨row, hr, e⟩ := h
    exact ⟨row, hr, by simp at e; simp [← e]⟩

/-- The opcodes among the 256 bytes are a rearrangement of the table, which has 26 rows. -/
theorem count_opcodes : ((List.finRange 256).filter fun k => k ∈ opcodeNumbers).length = 26 := by
  have listed : ((List.finRange 256).filter fun k => k ∈ opcodeNumbers).Perm opcodeNumbers :=
    (List.perm_ext_iff_of_nodup ((List.nodup_finRange 256).filter _) opcodeNumbers_nodup).2 fun k => by simp
  exact listed.length_eq

/-- Settles O2: a byte is refused as unknown exactly when the table does not list it, and the table lists 26 of the 256. -/
theorem unlistedOpcodesAreRefused : Obligations.UnlistedOpcodesAreRefused := by
  refine ⟨fun op rest => unknownOpcode_iff.trans lookupOpcode_eq_none_iff, ?_⟩
  have total := List.length_eq_length_filter_add (l := List.finRange 256) fun k => decide (k ∈ opcodeNumbers)
  have unlisted : ∀ k, (!decide (k ∈ opcodeNumbers)) =
      decide (decode [BitVec.ofFin k] = .error (.unknownOpcode (BitVec.ofFin k))) := fun k => by
    rw [← decide_not]
    exact decide_eq_decide.2 ((not_congr mem_opcodeNumbers).trans (not_not.trans unknownOpcode_iff.symm))
  rw [count_opcodes, List.length_finRange] at total
  rw [List.filter_congr fun k _ => (unlisted k).symm]
  omega

/-- Settles O3: the first bytes are opcodes of the table and the others stand as operands. -/
theorem sampleWordsDecode : Obligations.SampleWordsDecode :=
  ⟨decode_encode (.ldi 3 255) [], decode_encode (.push 7) [], decode_encode (.jeq 2) [], decode_encode (.st 1 0) [],
    decode_encode (.cmp 0 1) [], decode_encode .iret []⟩

end Sys2Proof
end

section
/-! PROOFS. The inversion lemma of `exec` read backwards: each of its cases is what the instruction answers, illegal register
bytes included (spec R74), so every instruction and every step answer a next state. Settles O8, O9, O10 and O16. -/

namespace Sys2Proof.Machine

variable {s t : State} {i : Instr}

/-- An illegal register operand byte, the first or the second, stops every instruction that has it. -/
theorem exec_of_not_wf (h : i.wf = false) : exec i s = .next (s.raise (.bounds .regindex)) := by
  cases i with
  | hlt | ret | iret => cases h
  | ldi | prn | pra | push | pop | call | jmp | jeq | jne | not | inc | dec =>
    exact withReg_bad (by simpa [Instr.wf, Instr.regBytes] using h) s _
  | ld | st | add | mul | and | or | xor | shl | shr | mod | cmp =>
    exact withRegs_bad (by simpa [Instr.wf, Instr.regBytes, -Bool.and_eq_false_imp, Bool.and_eq_false_iff] using h) s _

/-- The converse of `exec_next`. -/
theorem ExecTo.exec_eq (e : ExecTo s i t) : exec i s = .next t := by
  cases e with
  | badReg _ h => exact exec_of_not_wf h
  | hlt | ret | iret => rfl
  | ldi | prn | pra | push | pop | jmp | jeq | jne | not | inc | dec => exact withReg_regByte ..
  | ld | st | add | mul | and | or | xor | shl | shr | cmp => exact withRegs_regByte ..
  | call r h => rw [exec, execCall, withReg_regByte, if_pos h]
  | callOverflow r h => rw [exec, execCall, withReg_regByte, if_neg (not_le.2 h)]
  | mod r q h => rw [exec, execMod, withRegs_regByte, if_neg h]
  | modZero r q h => exact exec_mod_of_zero h

/-- An instruction has one answer. -/
theorem ExecTo.eq_of_exec {u : State} (e : ExecTo s i t) (h : exec i s = .next u) : u = t :=
  Host.Outcome.next.inj (h.symm.trans e.exec_eq)

/-! ### Totality -/

theorem withReg_total (a : Byte) (s : State) (k : RegIdx → State) : ∃ t, withReg a s k = .next t := by
  rw [withReg]; split <;> exact ⟨_, rfl⟩

theorem withRegs_total (a b : Byte) (s : State) (k : RegIdx → RegIdx → State) : ∃ t, withRegs a b s k = .next t := by
  rw [withRegs]; split <;> exact ⟨_, rfl⟩

theorem exec_total (i : Instr) (s : State) : ∃ t, exec i s = .next t := by
  cases i with
  | hlt | ret | iret => exact ⟨_, rfl⟩
  | ldi | prn | pra | push | pop | call | jmp | jeq | jne | not | inc | dec => exact withReg_total ..
  | ld | st | add | mul | and | or | xor | shl | shr | mod | cmp => exact withRegs_total ..

theorem fetchAndExec_total (s : State) : ∃ t, fetchAndExec s = .next t := by
  rw [fetchAndExec]
  split
  · exact exec_total _ s
  all_goals exact ⟨_, rfl⟩

theorem step_of_stopped {status : Fin 2} {c : Cause} (h : s.run = .stopped status c) : step s = .next s := by
  rw [step, runCycle, h]

/-- Settles O8: the operand check answers before the rule of the instruction. -/
theorem badRegisterByteStops : Obligations.BadRegisterByteStops := fun _ s h =>
  ⟨_, exec_of_not_wf h, s.raise_raised _⟩

/-- Settles O9: a stopped machine answers itself, a running one what its instruction or its fetch failure answers. -/
theorem everyStepAnswersNext : Obligations.EveryStepAnswersNext := by
  intro s
  cases h : s.run with
  | stopped status c => exact ⟨s, step_of_stopped h⟩
  | running => exact step_of_running h ▸ fetchAndExec_total s.poll

/-- Settles O10: a stopped state is a fixed point of the step. -/
theorem stoppedMachineStaysForever : Obligations.StoppedMachineStaysForever := fun k s _ _ h =>
  run_of_fixed core s (step_of_stopped h) k

/-- Settles O16: the reset memory is the empty list, and the machine runs with nothing emitted. -/
theorem resetMeetsInvariant : Obligations.ResetMeetsInvariant where
  mem_wf := Memory.wf_nil
  stops_reported := rfl

end Sys2Proof.Machine
end

section
/-! PROOFS. How executing an instruction ends (spec R75 to R77, R170 to R176): in a fatal condition without effect, in the
halt, in an effect and the automatic advance of pc, or in a pc the instruction sets itself. Settles O12 to O15. -/

namespace Sys2Proof.Machine

open Laws.Encoding (ownsPc)

/-! ### The fields of an opcode byte -/

theorem opcode_fields (i : Instr) : Laws.Encoding.Statement i := by
  cases i
  case ldi => exact Laws.Encoding.ldi ..
  case prn => exact Laws.Encoding.prn ..
  case pra => exact Laws.Encoding.pra ..
  case hlt => exact Laws.Encoding.hlt
  case push => exact Laws.Encoding.push ..
  case pop => exact Laws.Encoding.pop ..
  case call => exact Laws.Encoding.call ..
  case ret => exact Laws.Encoding.ret
  case jmp => exact Laws.Encoding.jmp ..
  case jeq => exact Laws.Encoding.jeq ..
  case jne => exact Laws.Encoding.jne ..
  case ld => exact Laws.Encoding.ld ..
  case st => exact Laws.Encoding.st ..
  case add => exact Laws.Encoding.add ..
  case mul => exact Laws.Encoding.mul ..
  case and => exact Laws.Encoding.and ..
  case or => exact Laws.Encoding.or ..
  case xor => exact Laws.Encoding.xor ..
  case not => exact Laws.Encoding.not ..
  case shl => exact Laws.Encoding.shl ..
  case shr => exact Laws.Encoding.shr ..
  case mod => exact Laws.Encoding.mod ..
  case inc => exact Laws.Encoding.inc ..
  case dec => exact Laws.Encoding.dec ..
  case cmp => exact Laws.Encoding.cmp ..
  case iret => exact Laws.Encoding.iret

theorem length_encode (i : Instr) : (encode i).length = nopnd i.opcode + 1 :=
  let ⟨h, _⟩ := opcode_fields i; h

theorem setsPc_opcode (i : Instr) : setsPc i.opcode = ownsPc i :=
  let ⟨_, h, _⟩ := opcode_fields i; h

/-! ### Effects before the advance -/

/-- The effect of an instruction before pc moves: registers, FL, memory and output may change, memory stays canonical, and at
most one event is emitted, which is no report. -/
structure Effect (s e : State) : Prop where
  only : e = { s with regs := e.regs, fl := e.fl, mem := e.mem, out := e.out }
  mem_wf : Memory.wf s.mem = true → Memory.wf e.mem = true
  emits : ∃ es, es.length ≤ 1 ∧ noReport es = true ∧ e.out = s.out ++ es

section Effects

variable {s e : State}

theorem Effect.pc (h : Effect s e) : e.pc = s.pc := h.only ▸ rfl
theorem Effect.run (h : Effect s e) : e.run = s.run := h.only ▸ rfl
theorem Effect.ie (h : Effect s e) : e.ie = s.ie := h.only ▸ rfl
theorem Effect.ltf (h : Effect s e) : e.ltf = s.ltf := h.only ▸ rfl
theorem Effect.inputs (h : Effect s e) : e.inputs = s.inputs := h.only ▸ rfl
theorem Effect.cycle (h : Effect s e) : e.cycle = s.cycle := h.only ▸ rfl

theorem Effect.setPc_self (h : Effect s e) : e.setPc s.pc = e := by rw [← h.pc]; rfl

theorem emits_nothing : ∃ es : List Event, es.length ≤ 1 ∧ noReport es = true ∧ s.out = s.out ++ es :=
  ⟨[], Nat.zero_le 1, rfl, (List.append_nil _).symm⟩

theorem effect_setReg (r : RegIdx) (v : Byte) : Effect s (s.setReg r v) := ⟨rfl, id, emits_nothing⟩
theorem effect_setFl (v : Byte) : Effect s (s.setFl v) := ⟨rfl, id, emits_nothing⟩
theorem effect_popReg (r : RegIdx) : Effect s (s.popReg r) := ⟨rfl, id, emits_nothing⟩
theorem effect_writeByte (a v : Byte) : Effect s (s.writeByte a v) :=
  ⟨rfl, fun h => Memory.wf_memWrite h a v, emits_nothing⟩
theorem effect_push (v : Byte) : Effect s (s.push v) := ⟨rfl, fun h => Memory.wf_memWrite h _ v, emits_nothing⟩
theorem effect_emit {ev : Event} (h : isReport ev = false) : Effect s (s.emit ev) :=
  ⟨rfl, id, [ev], le_rfl, by simp [noReport, h], rfl⟩

end Effects

/-! ### Fatal conditions of an instruction -/

/-- The instructions that own pc and yet need the address after themselves: CALL, and JEQ and JNE not taken (R76). -/
def ChecksNextPc (i : Instr) (s : State) : Prop :=
  (∃ r, i = .call (regByte r)) ∨ (∃ r, i = .jeq (regByte r) ∧ s.fl.getLsbD 0 = false) ∨
    (∃ r, i = .jne (regByte r) ∧ s.fl.getLsbD 0 = true)

/-- The conditions under which instruction `i` stops the machine in `s` before any effect. -/
inductive FatalIn (i : Instr) (s : State) : Cause → Prop
  | regindex (hwf : i.wf = false) : FatalIn i s (.bounds .regindex)
  | divzero (r q : RegIdx) (hi : i = .mod (regByte r) (regByte q)) (hq : s.reg q = 0) : FatalIn i s .divzero
  | pcoverflow (hset : ownsPc i = true) (hwf : i.wf = true) (hpc : s.pc.toNat + (encode i).length > 0xFF)
      (hi : ChecksNextPc i s) : FatalIn i s (.bounds .pcoverflow)

section Endings

variable {s t : State} {i : Instr}

/-! ### Instructions that advance pc automatically -/

/-- The rule of an automatically advancing instruction: at every address the same fatal condition, or the same effect and
then the advance by the instruction's length. -/
inductive Automatic (i : Instr) (s : State) : Prop
  | fatal (c : Cause) (hc : FatalIn i s c) (rule : ∀ p, exec i (s.setPc p) = .next ((s.setPc p).raise c))
  | effect (e : State) (hwf : i.wf = true) (he : Effect s e)
      (rule : ∀ p, exec i (s.setPc p) = .next ((e.setPc p).advance (encode i).length))

theorem automatic_of_ownsPc_false (hset : ownsPc i = false) (hi : i ≠ .hlt) (s : State) : Automatic i s := by
  cases hwf : i.wf with
  | false => exact .fatal _ (.regindex hwf) fun _ => exec_of_not_wf hwf
  | true =>
  obtain ⟨t, ht⟩ := exec_total i s
  cases exec_next ht with
  | badReg _ h => rw [hwf] at h; cases h
  | hlt => exact absurd rfl hi
  | call | callOverflow | ret | jmp | jeq | jne | iret => cases hset
  | modZero r q h => exact .fatal _ (.divzero r q rfl h) fun _ => exec_mod_of_zero h
  | mod r q h =>
    exact .effect _ hwf (effect_setReg r (aluMod (s.reg r) (s.reg q))) fun p =>
      (ExecTo.mod (s := s.setPc p) r q h).exec_eq
  | ldi r imm => exact .effect _ hwf (effect_setReg ..) fun _ => (ExecTo.ldi r imm).exec_eq
  | prn r => exact .effect _ hwf (effect_emit (ev := .dec (s.reg r)) rfl) fun _ => (ExecTo.prn r).exec_eq
  | pra r => exact .effect _ hwf (effect_emit (ev := .chr (s.reg r)) rfl) fun _ => (ExecTo.pra r).exec_eq
  | push r => exact .effect _ hwf (effect_push (s.reg r)) fun _ => (ExecTo.push r).exec_eq
  | pop r => exact .effect _ hwf (effect_popReg _) fun _ => (ExecTo.pop r).exec_eq
  | ld r q => exact .effect _ hwf (effect_setReg r (s.readByte (s.reg q))) fun _ => (ExecTo.ld r q).exec_eq
  | st r q => exact .effect _ hwf (effect_writeByte (s.reg r) (s.reg q)) fun _ => (ExecTo.st r q).exec_eq
  | add r q => exact .effect _ hwf (effect_setReg r (aluAdd (s.reg r) (s.reg q))) fun _ => (ExecTo.add r q).exec_eq
  | mul r q => exact .effect _ hwf (effect_setReg r (aluMul (s.reg r) (s.reg q))) fun _ => (ExecTo.mul r q).exec_eq
  | and r q => exact .effect _ hwf (effect_setReg r (aluAnd (s.reg r) (s.reg q))) fun _ => (ExecTo.and r q).exec_eq
  | or r q => exact .effect _ hwf (effect_setReg r (aluOr (s.reg r) (s.reg q))) fun _ => (ExecTo.or r q).exec_eq
  | xor r q => exact .effect _ hwf (effect_setReg r (aluXor (s.reg r) (s.reg q))) fun _ => (ExecTo.xor r q).exec_eq
  | not r => exact .effect _ hwf (effect_setReg r (aluNot (s.reg r))) fun _ => (ExecTo.not r).exec_eq
  | shl r q => exact .effect _ hwf (effect_setReg r (aluShl (s.reg r) (s.reg q))) fun _ => (ExecTo.shl r q).exec_eq
  | shr r q => exact .effect _ hwf (effect_setReg r (aluShr (s.reg r) (s.reg q))) fun _ => (ExecTo.shr r q).exec_eq
  | inc r => exact .effect _ hwf (effect_setReg r (aluInc (s.reg r))) fun _ => (ExecTo.inc r).exec_eq
  | dec r => exact .effect _ hwf (effect_setReg r (aluDec (s.reg r))) fun _ => (ExecTo.dec r).exec_eq
  | cmp r q => exact .effect _ hwf (effect_setFl (cmpFlags s.fl (s.reg r) (s.reg q))) fun _ => (ExecTo.cmp r q).exec_eq

/-! ### All instructions -/

/-- How an instruction ends. -/
inductive Ending (s : State) (i : Instr) : State → Prop
  | fatal {c : Cause} (hc : FatalIn i s c) : Ending s i (s.raise c)
  | halt (hi : i = .hlt) : Ending s i s.halt
  | advance {e : State} (hset : ownsPc i = false) (hi : i ≠ .hlt) (hwf : i.wf = true) (he : Effect s e) :
      Ending s i (e.advance (encode i).length)
  | jump {t : State} (hset : ownsPc i = true) (hrun : t.run = s.run) (hout : t.out = s.out)
      (hmem : Memory.wf s.mem = true → Memory.wf t.mem = true) : Ending s i t

/-- A conditional jump is taken, or falls through, or stops where it cannot fall through. -/
theorem ending_jumpIf {taken : Bool} {r : RegIdx} (hset : ownsPc i = true) (hwf : i.wf = true)
    (hlen : (encode i).length = 2) (hi : taken = false → ChecksNextPc i s) : Ending s i (s.jumpIf taken r) := by
  rcases s.jumpIf_cases taken r with ⟨_, e⟩ | ⟨htaken, e⟩ <;> rw [e]
  · exact .jump hset rfl rfl id
  · rcases s.advance_cases 2 with ⟨_, e⟩ | ⟨hpc, e⟩ <;> rw [e]
    · exact .jump hset rfl rfl id
    · exact .fatal (.pcoverflow hset hwf (by rw [hlen]; exact hpc) (hi htaken))

theorem exec_ending (h : exec i s = .next t) : Ending s i t := by
  cases hset : ownsPc i with
  | false =>
    by_cases hi : i = .hlt
    · subst hi; cases h; exact .halt rfl
    · rcases automatic_of_ownsPc_false hset hi s with ⟨c, hc, rule⟩ | ⟨e, hwf, he, rule⟩
      · obtain rfl : s.raise c = t := Host.Outcome.next.inj ((rule s.pc).symm.trans h)
        exact .fatal hc
      · have ht := Host.Outcome.next.inj ((rule s.pc).symm.trans h)
        rw [he.setPc_self] at ht
        exact ht ▸ .advance hset hi hwf he
  | true =>
    cases exec_next h with
    | badReg _ hwf => exact .fatal (.regindex hwf)
    | call r hpc => exact .jump hset rfl rfl fun hm => Memory.wf_memWrite hm ..
    | callOverflow r hpc => exact .fatal (.pcoverflow hset (by simp [Instr.wf, Instr.regBytes]) hpc (.inl ⟨r, rfl⟩))
    | ret | jmp => exact .jump hset rfl rfl id
    | jeq r =>
      exact ending_jumpIf hset (by simp [Instr.wf, Instr.regBytes]) rfl fun hE => .inr (.inl ⟨r, rfl, hE⟩)
    | jne r =>
      exact ending_jumpIf hset (by simp [Instr.wf, Instr.regBytes]) rfl fun hE =>
        .inr (.inr ⟨r, rfl, by simpa [flagE] using hE⟩)
    | iret =>
      exact .jump hset s.returnFromInterrupt_run s.returnFromInterrupt_out fun hm => s.returnFromInterrupt_mem.symm ▸ hm
    | hlt | ldi | prn | pra | push | pop | ld | st | add | mul | and | or | xor | not | shl | shr | mod | modZero | inc
    | dec | cmp => cases hset

/-- What keeps the machine running, or stops it with an overflow, at the advance after an effect. -/
theorem Effect.advance_cases {e : State} (he : Effect s e) (n : Nat) :
    (s.pc.toNat + n ≤ 255 ∧ e.advance n = e.setPc (s.pc + BitVec.ofNat 8 n)) ∨
      (255 < s.pc.toNat + n ∧ e.advance n = e.raise (.bounds .pcoverflow)) :=
  he.pc ▸ e.advance_cases n

/-! ### The conditional jump -/

theorem flagE_eq (fl : Byte) : flagE fl = fl.getLsbD 0 := rfl
theorem State.jumpIf_true (s : State) (r : RegIdx) : s.jumpIf true r = s.setPc (s.reg r) := rfl
theorem State.jumpIf_false (s : State) (r : RegIdx) : s.jumpIf false r = s.advance 2 := rfl

/-- A conditional jump that leaves the machine running goes to the register or past its two bytes. -/
theorem State.jumpIf_pc {taken : Bool} {r : RegIdx} (hrun : (s.jumpIf taken r).run = .running) :
    if taken = true then (s.jumpIf taken r).pc = s.reg r else (s.jumpIf taken r).pc.toNat = s.pc.toNat + 2 := by
  cases taken with
  | true => rfl
  | false =>
    rw [if_neg nofun]
    rw [s.jumpIf_false] at hrun ⊢
    rcases s.advance_cases 2 with ⟨hle, _⟩ | ⟨_, e⟩
    · exact State.advance_pc_of_le hle
    · rw [e] at hrun; cases hrun

end Endings

/-! ### The obligations -/

/-- Settles O12: of the endings only a fatal condition and an overflowing advance stop with status 1. -/
theorem fatalConditionsArePrecise : Obligations.FatalConditionsArePrecise := by
  intro i s t c hs h ht hc
  rcases exec_ending h with hf | hi | ⟨hset, hi, hwf, he⟩ | ⟨hset, hrun⟩
  · obtain rfl := (RunStatus.stopped.inj ht).2
    exact s.raise_raised _
  · cases ht
  · rcases he.advance_cases (encode i).length with ⟨_, e⟩ | ⟨_, e⟩ <;> rw [e] at ht
    · rw [State.setPc_run, he.run, hs] at ht; cases ht
    · obtain rfl := (RunStatus.stopped.inj ht).2
      rw [setsPc_opcode, hset] at hc
      simp at hc
  · rw [hrun, hs] at ht; cases ht

/-- Settles O13: the rule of an automatically advancing instruction has one effect for all addresses. -/
theorem pcOverflowKeepsEffects : Obligations.PcOverflowKeepsEffects := by
  intro i s u hs hset hi hu hrun hpc
  rw [add_assoc, ← length_encode] at hpc
  rcases automatic_of_ownsPc_false (setsPc_opcode i ▸ hset) hi s with ⟨c, _, rule⟩ | ⟨e, _, he, rule⟩
  · obtain rfl := Host.Outcome.next.inj ((rule 0).symm.trans hu)
    cases hrun
  · have stops : exec i s = .next (e.raise (.bounds .pcoverflow)) := by
      rw [← he.setPc_self, ← State.advance_of_gt (by rwa [State.setPc_pc])]
      exact rule s.pc
    have runs : u = (e.setPc 0).setPc (0 + BitVec.ofNat 8 (encode i).length) := by
      have short := length_encode_le i
      obtain rfl := Host.Outcome.next.inj ((rule 0).symm.trans hu)
      exact State.advance_of_le (s := e.setPc 0) (by simp; omega)
    subst runs
    exact ⟨_, stops, he.pc, rfl, rfl, rfl, rfl, rfl, he.ie, he.ltf, he.inputs, he.cycle⟩

/-- Settles O14: CALL and the conditional jumps not taken check the address before any effect. -/
theorem jumpOverflowHasNoEffect : Obligations.JumpOverflowHasNoEffect := by
  intro r s hpc
  refine ⟨⟨_, (ExecTo.callOverflow r hpc).exec_eq, s.raise_raised _⟩, fun hE => ⟨_, (ExecTo.jeq r).exec_eq, ?_⟩,
    fun hE => ⟨_, (ExecTo.jne r).exec_eq, ?_⟩⟩
  · rw [flagE_eq, hE, s.jumpIf_false, State.advance_of_gt hpc]
    exact s.raise_raised _
  · rw [flagE_eq, hE, Bool.not_true, s.jumpIf_false, State.advance_of_gt hpc]
    exact s.raise_raised _

/-- Settles O15: an automatically advancing instruction leaves pc to the advance, and each other one has its own rule. -/
theorem pcAdvanceRule : Obligations.PcAdvanceRule := by
  intro i s t hs h
  refine ⟨fun hi => by subst hi; cases h; rfl, fun hrun => ⟨fun hset => ?_, ?_, ?_, ?_, ?_, ?_, ?_⟩⟩
  · rw [setsPc_opcode] at hset
    rw [add_assoc, ← length_encode]
    rcases exec_ending h with _ | _ | ⟨_, _, _, he⟩ | ⟨hset'⟩
    · cases hrun
    · cases hrun
    · rcases he.advance_cases (encode i).length with ⟨hle, e⟩ | ⟨_, e⟩ <;> rw [e] at hrun ⊢
      · exact toNat_add_ofNat hle
      · cases hrun
    · rw [hset] at hset'; cases hset'
  · rintro r rfl
    rw [(ExecTo.jmp r).eq_of_exec h]; rfl
  · rintro r rfl
    by_cases hpc : s.pc.toNat + 2 ≤ 255
    · rw [(ExecTo.call r hpc).eq_of_exec h]; rfl
    · rw [(ExecTo.callOverflow r (not_le.1 hpc)).eq_of_exec h] at hrun
      cases hrun
  · rintro r rfl
    rw [(ExecTo.jeq r).eq_of_exec h] at hrun ⊢
    exact s.jumpIf_pc hrun
  · rintro r rfl
    rw [(ExecTo.jne r).eq_of_exec h] at hrun ⊢
    simpa [flagE_eq] using s.jumpIf_pc hrun
  · rintro rfl
    rw [(ExecTo.ret).eq_of_exec h]; rfl
  · rintro rfl
    rw [(ExecTo.iret).eq_of_exec h, s.returnFromInterrupt_pc]

end Sys2Proof.Machine
end

section
/-! PROOFS. The cycle of a running machine: the instruction whose bytes stand at pc runs, a missing operand byte stops,
and what stops a cycle (spec R70 to R79, R170 to R177). Settles O4, O5, O7 and O11. -/

namespace Sys2Proof.Machine

variable {s t : State} {i : Instr}

theorem fetchAndExec_of_decode {rest : List Byte} (h : decode s.fetchWindow = .ok (i, rest)) :
    fetchAndExec s = exec i s := by
  rw [fetchAndExec, h]

/-- An opcode byte needs as many bytes after it as its bits 7:6 say. -/
theorem decode_of_missing {rest : List Byte} (h : rest.length < nopnd i.opcode) :
    decode (i.opcode :: rest) = .error (.operandMissing i.opcode) := by
  cases hd : decode (i.opcode :: rest) with
  | ok r =>
    obtain ⟨j, after⟩ := r
    have same := opcode_of_decode hd
    have whole := congrArg List.length (eq_encode_of_decode hd)
    rw [List.length_cons, List.length_append, length_encode, same] at whole
    omega
  | error e =>
    rcases decode_error hd with ⟨_, hl⟩ | ⟨rfl, _⟩
    · exact absurd hl (lookupOpcode_opcode_ne_none i)
    · rfl

theorem fetchAndExec_of_missing (hop : s.readByte s.pc = i.opcode) (hpc : s.pc.toNat + nopnd i.opcode > 0xFF) :
    fetchAndExec s = .next (s.raise (.bounds .fetch)) := by
  obtain ⟨rest, hw⟩ := s.fetchWindow_cons
  have len := s.length_fetchWindow
  rw [hw, List.length_cons] at len
  have short := length_encode_le i
  rw [length_encode] at short
  rw [fetchAndExec, hw, hop, decode_of_missing (by omega)]

/-- Settles O4: the polled state fetches, decodes and executes. -/
theorem stepRunsDecodedInstruction : Obligations.StepRunsDecodedInstruction := fun _ _ _ hrun hd =>
  (step_of_running hrun).trans (fetchAndExec_of_decode hd)

/-- Settles O5: the fetch window begins with the encoding, which the decoder undoes. -/
theorem stepRunsBytesAtPc : Obligations.StepRunsBytesAtPc := by
  intro s i hrun hfit hbytes
  obtain ⟨rest, hw⟩ := s.poll.fetchWindow_of_bytes (encode i) (length_encode_le i) hfit hbytes
  exact stepRunsDecodedInstruction s i rest hrun (hw ▸ decode_encode i rest)

/-- Settles O7: the window ends before the operand bytes, and the decoder misses one. -/
theorem operandBeyondMemoryStops : Obligations.OperandBeyondMemoryStops := fun s _ hrun hop hpc =>
  ⟨_, (step_of_running hrun).trans (fetchAndExec_of_missing hop hpc), s.poll.raise_raised _⟩

/-! ### What stops a cycle -/

/-- No other instruction has HLT's opcode, because the decoder answers HLT to it. -/
theorem eq_hlt_of_opcode (h : i.opcode = Instr.hlt.opcode) : i = .hlt := by
  have decoded := decode_encode i []
  rw [encode, h] at decoded
  cases (decode_encode .hlt (i.operandBytes ++ [])).symm.trans decoded
  rfl

theorem FatalIn.ne_hlt {c : Cause} (h : FatalIn i s c) : i ≠ .hlt := by
  rintro rfl
  cases h with
  | regindex hwf => cases hwf
  | divzero _ _ hi => cases hi
  | pcoverflow hset => revert hset; decide

/-- What a cycle that stops found at the polled state `p`, with the status and the cause of the stop. -/
inductive CycleStop (p : State) : Fin 2 → Cause → Prop
  | halt (hop : p.readByte p.pc = Instr.hlt.opcode) : CycleStop p 0 .halt
  | decode (hop : ∀ i : Instr, i.opcode ≠ p.readByte p.pc) : CycleStop p 1 (.decode (p.readByte p.pc))
  | fetch (i : Instr) (hop : i.opcode = p.readByte p.pc) (hpc : p.pc.toNat + nopnd i.opcode > 0xFF) :
      CycleStop p 1 (.bounds .fetch)
  | fatal (i rest c) (hop : i.opcode = p.readByte p.pc) (hd : decode p.fetchWindow = .ok (i, rest)) (hc : FatalIn i p c) :
      CycleStop p 1 c
  | advance (i rest) (hop : i.opcode = p.readByte p.pc) (hd : decode p.fetchWindow = .ok (i, rest)) (hwf : i.wf = true)
      (hset : setsPc i.opcode = false) (hi : i ≠ .hlt) (hpc : p.pc.toNat + nopnd i.opcode + 1 > 0xFF) :
      CycleStop p 1 (.bounds .pcoverflow)

/-- The inversion lemma of a cycle that stops. -/
theorem cycleStop_of_step {n : Fin 2} {c : Cause} (hs : s.run = .running) (h : step s = .next t)
    (ht : t.run = .stopped n c) : CycleStop s.poll n c := by
  rcases step_next h with h | ⟨op, _, hl, rfl⟩ | ⟨i, _, hi, hpc⟩ | ⟨i, rest, _, _, hd, hop, he⟩
  · rw [hs] at ht; cases ht
  · cases ht; exact .decode (lookupOpcode_eq_none_iff.1 hl)
  · cases ht; exact .fetch i hi hpc
  · rcases exec_ending he with hc | hi | ⟨hset, hi, hwf, heff⟩ | ⟨_, hrun⟩
    · cases ht; exact .fatal i rest _ hop hd hc
    · subst hi; cases ht; exact .halt hop.symm
    · rcases heff.advance_cases (encode i).length with ⟨_, e⟩ | ⟨hpc, e⟩ <;> rw [e] at ht
      · rw [State.setPc_run, heff.run, s.poll_run, hs] at ht; cases ht
      · cases ht
        rw [length_encode, ← add_assoc] at hpc
        exact .advance i rest hop hd hwf (setsPc_opcode i ▸ hset) hi hpc
    · rw [hrun, s.poll_run, hs] at ht; cases ht

/-- Settles O11: each way a cycle stops has its own cause, so a clause about another cause says nothing of it. -/
theorem onlyListedStops : Obligations.OnlyListedStops := by
  intro s t status c hs h ht
  cases cycleStop_of_step hs h ht with
  | halt hop => exact ⟨by decide, iff_of_true rfl hop, nofun, nofun, nofun, nofun, nofun, nofun⟩
  | decode hop =>
    exact ⟨by simp, iff_of_false nofun (hop .hlt).symm, fun _ e => by cases e; exact ⟨rfl, hop⟩, nofun, nofun, nofun, nofun,
      nofun⟩
  | fetch i hop hpc =>
    refine ⟨by decide, iff_of_false nofun fun hhlt => ?_, nofun, nofun, fun _ => ⟨i, hop, hpc⟩, nofun, nofun, nofun⟩
    rw [hop.trans hhlt] at hpc
    have inside := s.poll.pc.isLt
    have no_operand : nopnd Instr.hlt.opcode = 0 := by decide
    omega
  | fatal i rest c hop hd hc =>
    have no_hlt : ¬ s.poll.readByte s.poll.pc = Instr.hlt.opcode := fun e => hc.ne_hlt (eq_hlt_of_opcode (hop.trans e))
    cases hc with
    | regindex hwf =>
      exact ⟨by decide, iff_of_false nofun no_hlt, nofun, nofun, nofun, fun _ => ⟨i, rest, hd, hwf⟩, nofun, nofun⟩
    | divzero r q hi hq =>
      exact ⟨by decide, iff_of_false nofun no_hlt, nofun, fun _ => ⟨r, q, rest, hi ▸ hd, hq⟩, nofun, nofun, nofun, nofun⟩
    | pcoverflow hset hwf hpc hi =>
      rw [length_encode, ← add_assoc] at hpc
      exact ⟨by decide, iff_of_false nofun no_hlt, nofun, nofun, nofun, nofun,
        fun _ => ⟨i, rest, hd, hwf, hpc, .inr hi⟩, nofun⟩
  | advance i rest hop hd hwf hset hi hpc =>
    have no_hlt : ¬ s.poll.readByte s.poll.pc = Instr.hlt.opcode := fun e => hi (eq_hlt_of_opcode (hop.trans e))
    exact ⟨by decide, iff_of_false nofun no_hlt, nofun, nofun, nofun, nofun,
      fun _ => ⟨i, rest, hd, hwf, hpc, .inl ⟨hset, hi⟩⟩, nofun⟩

end Sys2Proof.Machine
end

section
/-! PROOFS. What every step keeps (spec R14, R17, R18, R32, R80, R175): the invariant, and the fields that most instructions
leave alone. Settles O17 and O20 to O23. -/

namespace Sys2Proof.Machine

variable {s t : State} {i : Instr}

/-! ### The invariant -/

theorem Inv.noReport (h : Inv s) (hrun : s.run = .running) : noReport s.out = true := by
  have reported := h.stops_reported
  rwa [StopsReported, hrun] at reported

theorem inv_of_running (hmem : Memory.wf s.mem = true) (hrun : s.run = .running) (hout : noReport s.out = true) : Inv s :=
  ⟨hmem, by rwa [StopsReported, hrun]⟩

theorem Inv.halt (h : Inv s) (hrun : s.run = .running) : Inv s.halt :=
  ⟨h.mem_wf, rfl, nofun, fun _ => h.noReport hrun, fun ne => absurd rfl ne⟩

/-- A fatal condition adds the only report, as the last event. -/
theorem Inv.raise {c : Cause} (h : Inv s) (hrun : s.run = .running) (hhalt : c ≠ .halt) (haluop : c ≠ .aluop) :
    Inv (s.raise c) := by
  refine ⟨h.mem_wf, ?_, haluop, fun e => absurd e hhalt, fun _ => ⟨s.out, rfl, h.noReport hrun⟩⟩
  cases c with
  | halt => exact absurd rfl hhalt
  | decode | aluop | divzero | bounds => rfl

theorem Inv.effect {e : State} (h : Inv s) (hrun : s.run = .running) (he : Effect s e) : Inv e := by
  obtain ⟨es, _, quiet, out⟩ := he.emits
  refine inv_of_running (he.mem_wf h.mem_wf) (he.run.trans hrun) ?_
  rw [out, noReport_append, h.noReport hrun, quiet]
  rfl

theorem Inv.advance (h : Inv s) (hrun : s.run = .running) (n : Nat) : Inv (s.advance n) := by
  rcases s.advance_cases n with ⟨_, e⟩ | ⟨_, e⟩ <;> rw [e]
  · exact inv_of_running h.mem_wf hrun (h.noReport hrun)
  · exact h.raise hrun nofun nofun

theorem Inv.poll (h : Inv s) (hrun : s.run = .running) : Inv s.poll :=
  inv_of_running (State.wf_poll h.mem_wf) (s.poll_run.trans hrun) (s.poll_out.symm ▸ h.noReport hrun)

theorem Inv.exec (h : Inv s) (hrun : s.run = .running) (e : exec i s = .next t) : Inv t := by
  rcases exec_ending e with hc | _ | ⟨_, _, _, heff⟩ | ⟨_, hrun', hout, hmem⟩
  · exact h.raise hrun (by cases hc <;> nofun) (by cases hc <;> nofun)
  · exact h.halt hrun
  · exact (h.effect hrun heff).advance (heff.run.trans hrun) _
  · exact inv_of_running (hmem h.mem_wf) (hrun'.trans hrun) (hout ▸ h.noReport hrun)

/-- Settles O17: the poll keeps a running machine's invariant, and each ending of the cycle keeps it from there. -/
theorem stepKeepsInvariant : Obligations.StepKeepsInvariant := by
  intro s t inv h
  rcases step_next h with _ | ⟨op, hrun, _, _⟩ | ⟨i, hrun, _, _⟩ | ⟨i, rest, _, hrun, _, _, he⟩
  · exact inv
  · exact (inv.poll hrun).raise (s.poll_run.trans hrun) nofun nofun
  · exact (inv.poll hrun).raise (s.poll_run.trans hrun) nofun nofun
  · exact (inv.poll hrun).exec (s.poll_run.trans hrun) he

/-! ### FL and memory -/

theorem State.jumpIf_fl (taken : Bool) (r : RegIdx) : (s.jumpIf taken r).fl = s.fl := by
  cases taken <;> simp [State.jumpIf]

theorem State.jumpIf_readByte (taken : Bool) (r : RegIdx) (a : Byte) :
    (s.jumpIf taken r).readByte a = s.readByte a := by
  cases taken <;> simp [State.jumpIf]

/-- Settles O20: CMP and IRET are the only rules with a write of FL. -/
theorem flagsWrittenOnlyByCmpAndIret : Obligations.FlagsWrittenOnlyByCmpAndIret := by
  refine ⟨fun i s t h hcmp hiret => ?_, State.poll_fl⟩
  cases exec_next h with
  | cmp r q => exact absurd rfl (hcmp _ _)
  | iret => exact absurd rfl hiret
  | jeq | jne => exact s.jumpIf_fl ..
  | badReg | hlt | call | callOverflow | ret | jmp | modZero => rfl
  | ldi | prn | pra | push | pop | ld | st | add | mul | and | or | xor | not | shl | shr | mod | inc | dec =>
    exact State.advance_fl ..

/-- Settles O21: ST, PUSH and CALL are the only rules with a write of memory. -/
theorem memoryWrittenOnlyByStoresAndPushes : Obligations.MemoryWrittenOnlyByStoresAndPushes := by
  intro i s t h hst hpush hcall a
  cases exec_next h with
  | st => exact absurd rfl (hst _ _)
  | push => exact absurd rfl (hpush _)
  | call => exact absurd rfl (hcall _)
  | iret => exact s.returnFromInterrupt_readByte a
  | jeq | jne => exact s.jumpIf_readByte ..
  | badReg | hlt | callOverflow | ret | jmp | modZero => rfl
  | ldi | prn | pra | pop | ld | add | mul | and | or | xor | not | shl | shr | mod | inc | dec | cmp =>
    exact State.advance_readByte ..

/-! ### The environment's readings -/

/-- After its poll a cycle leaves the model's record of the environment alone. -/
theorem step_inputs_cycle (hrun : s.run = .running) (h : step s = .next t) :
    t.inputs = s.poll.inputs ∧ t.cycle = s.poll.cycle := by
  rcases step_next h with hstop | _ | _ | ⟨i, rest, _, _, _, _, he⟩
  · rw [hrun] at hstop; cases hstop
  · exact ⟨rfl, rfl⟩
  · exact ⟨rfl, rfl⟩
  · rw [exec_hidden he, State.withHidden_inputs, State.withHidden_cycle]
    split <;> exact ⟨rfl, rfl⟩

/-- Settles O22: the readings are hidden fields of every instruction, and the poll uses up one. -/
theorem oneReadingPerCycleAndNoneByInstructions : Obligations.OneReadingPerCycleAndNoneByInstructions := by
  refine ⟨fun i s t es n h => ?_, fun s t hrun h => ?_⟩
  · have same := exec_withHidden (h := { s with inputs := es, cycle := n }) h
    rw [exec_hidden h]
    refine same.trans ?_
    split <;> rfl
  · obtain ⟨inputs, cycle⟩ := step_inputs_cycle hrun h
    exact ⟨inputs.trans s.poll_inputs, cycle.trans s.poll_cycle⟩

/-! ### The output stream -/

/-- `s` with the events `o` before those it has emitted. -/
def State.prependOut (s : State) (o : List Event) : State := { s with out := o ++ s.out }

section Output

variable (s : State) (o : List Event)

@[simp] theorem State.prependOut_pc : (s.prependOut o).pc = s.pc := rfl
@[simp] theorem State.prependOut_fl : (s.prependOut o).fl = s.fl := rfl
@[simp] theorem State.prependOut_reg (r : RegIdx) : (s.prependOut o).reg r = s.reg r := rfl
@[simp] theorem State.prependOut_readByte (a : Byte) : (s.prependOut o).readByte a = s.readByte a := rfl

@[simp] theorem State.setReg_prependOut (r : RegIdx) (v : Byte) :
    (s.prependOut o).setReg r v = (s.setReg r v).prependOut o := rfl
@[simp] theorem State.setPc_prependOut (v : Byte) : (s.prependOut o).setPc v = (s.setPc v).prependOut o := rfl
@[simp] theorem State.setFl_prependOut (v : Byte) : (s.prependOut o).setFl v = (s.setFl v).prependOut o := rfl
@[simp] theorem State.writeByte_prependOut (a v : Byte) :
    (s.prependOut o).writeByte a v = (s.writeByte a v).prependOut o := rfl
@[simp] theorem State.push_prependOut (v : Byte) : (s.prependOut o).push v = (s.push v).prependOut o := rfl
@[simp] theorem State.popReg_prependOut (r : RegIdx) : (s.prependOut o).popReg r = (s.popReg r).prependOut o := rfl

@[simp] theorem State.popFl_prependOut : (s.prependOut o).popFl = s.popFl.prependOut o := rfl
@[simp] theorem State.popPc_prependOut : (s.prependOut o).popPc = s.popPc.prependOut o := rfl
@[simp] theorem State.setIe_prependOut (b : Bool) : (s.prependOut o).setIe b = (s.setIe b).prependOut o := rfl

@[simp] theorem State.emit_prependOut (e : Event) : (s.prependOut o).emit e = (s.emit e).prependOut o := by
  simp [State.emit, State.prependOut]

@[simp] theorem State.raise_prependOut (c : Cause) : (s.prependOut o).raise c = (s.raise c).prependOut o := by
  rw [State.raise, State.emit_prependOut]; rfl

@[simp] theorem State.advance_prependOut (n : Nat) : (s.prependOut o).advance n = (s.advance n).prependOut o := by
  rcases s.advance_cases n with ⟨hn, e⟩ | ⟨hn, e⟩ <;> rw [e]
  · exact State.advance_of_le hn
  · rw [← State.raise_prependOut]; exact State.advance_of_gt hn

@[simp] theorem State.jumpIf_prependOut (taken : Bool) (r : RegIdx) :
    (s.prependOut o).jumpIf taken r = (s.jumpIf taken r).prependOut o := by
  cases taken
  · exact s.advance_prependOut o 2
  · rfl

theorem State.ite_prependOut (c : Prop) [Decidable c] (t : State) :
    (if c then s else t).prependOut o = if c then s.prependOut o else t.prependOut o :=
  apply_ite (State.prependOut · o) c s t

theorem State.pushAll_prependOut (vs : List Byte) : (s.prependOut o).pushAll vs = (s.pushAll vs).prependOut o := by
  induction vs generalizing s with
  | nil => rfl
  | cons v vs ih => rw [State.pushAll_cons, State.push_prependOut, ih, State.pushAll_cons]

theorem State.popRegs_prependOut (rs : List RegIdx) :
    rs.foldl State.popReg (s.prependOut o) = (rs.foldl State.popReg s).prependOut o := by
  induction rs generalizing s with
  | nil => rfl
  | cons r rs ih => rw [List.foldl_cons, State.popReg_prependOut, ih, List.foldl_cons]

theorem State.returnFromInterrupt_prependOut :
    (s.prependOut o).returnFromInterrupt = s.returnFromInterrupt.prependOut o := by
  rw [State.returnFromInterrupt, State.popRegs_prependOut, State.popFl_prependOut, State.popPc_prependOut,
    State.setIe_prependOut, State.returnFromInterrupt]

theorem State.enterInterrupt_prependOut (i : Line) :
    (s.prependOut o).enterInterrupt i = (s.enterInterrupt i).prependOut o :=
  congrArg (fun u : State => u.setPc (u.readByte (vectorAddr i)))
    (((s.putIs i false).setIe false).pushAll_prependOut o ((s.putIs i false).setIe false).frame)

theorem State.timerPoll_prependOut (n : Time) : (s.prependOut o).timerPoll n = (s.timerPoll n).prependOut o := by
  rw [State.timerPoll, State.timerPoll, State.ite_prependOut]; rfl

theorem State.keyboardPoll_prependOut (k : Option Byte) :
    (s.prependOut o).keyboardPoll k = (s.keyboardPoll k).prependOut o := by cases k <;> rfl

theorem State.latchRequests_prependOut : (s.prependOut o).latchRequests = s.latchRequests.prependOut o := by
  rw [State.latchRequests, State.latchRequests, ← State.keyboardPoll_prependOut, ← State.timerPoll_prependOut]
  rfl

theorem State.interruptAccept_prependOut : (s.prependOut o).interruptAccept = s.interruptAccept.prependOut o := by
  rcases s.interruptAccept_cases with ⟨hn, e⟩ | ⟨i, hi, e⟩ <;> rw [e]
  · exact State.interruptAccept_of_none hn
  · rw [← State.enterInterrupt_prependOut]; exact State.interruptAccept_of_some hi

theorem State.poll_prependOut : (s.prependOut o).poll = s.poll.prependOut o := by
  rw [State.poll, State.latchRequests_prependOut, State.interruptAccept_prependOut]; rfl

end Output

section PrependOut

variable {o : List Event}

theorem withReg_prependOut {a : Byte} {k k' : RegIdx → State} (e : withReg a s k = .next t)
    (hk : ∀ r, k' r = (k r).prependOut o) : withReg a (s.prependOut o) k' = .next (t.prependOut o) := by
  rcases withReg_cases e with ⟨r, rfl, rfl⟩ | ⟨hb, rfl⟩
  · rw [withReg_regByte, hk]
  · rw [withReg_bad hb, State.raise_prependOut]

theorem withRegs_prependOut {a b : Byte} {k k' : RegIdx → RegIdx → State} (e : withRegs a b s k = .next t)
    (hk : ∀ r q, k' r q = (k r q).prependOut o) : withRegs a b (s.prependOut o) k' = .next (t.prependOut o) := by
  rcases withRegs_cases e with ⟨r, q, rfl, rfl, rfl⟩ | ⟨hb, rfl⟩
  · rw [withRegs_regByte, hk]
  · rw [withRegs_bad hb, State.raise_prependOut]

/-- An instruction does the same after any earlier output. -/
theorem exec_prependOut (e : exec i s = .next t) : exec i (s.prependOut o) = .next (t.prependOut o) := by
  cases i with
  | hlt | ret => cases e; rfl
  | iret =>
    obtain rfl := (ExecTo.iret).eq_of_exec e
    rw [← State.returnFromInterrupt_prependOut]; rfl
  | ldi | prn | pra | push | pop | call | jmp | jeq | jne | not | inc | dec =>
    exact withReg_prependOut e fun r => by simp [State.ite_prependOut]
  | ld | st | add | mul | and | or | xor | shl | shr | mod | cmp =>
    exact withRegs_prependOut e fun r q => by simp [State.ite_prependOut]

theorem fetchAndExec_prependOut (e : fetchAndExec s = .next t) :
    fetchAndExec (s.prependOut o) = .next (t.prependOut o) := by
  have window : (s.prependOut o).fetchWindow = s.fetchWindow := rfl
  rw [fetchAndExec] at e ⊢
  rw [window]
  cases hd : decode s.fetchWindow with
  | ok decoded => rw [hd] at e; exact exec_prependOut e
  | error failure =>
    rw [hd] at e
    cases failure <;> cases e <;> exact congrArg Host.Outcome.next (s.raise_prependOut o _)

theorem step_prependOut (e : step s = .next t) : step (s.prependOut o) = .next (t.prependOut o) := by
  cases hrun : s.run with
  | running =>
    rw [step_of_running hrun] at e
    rw [step_of_running (s := s.prependOut o) hrun, State.poll_prependOut]
    exact fetchAndExec_prependOut e
  | stopped status c =>
    rw [step_of_stopped hrun] at e
    cases e
    exact step_of_stopped (s := s.prependOut o) hrun

/-- A step emits at most two events. -/
theorem step_out_length (e : step s = .next t) : t.out.length ≤ s.out.length + 2 := by
  rcases step_next e with _ | _ | _ | ⟨i, rest, _, _, _, _, he⟩
  · omega
  · simp [s.poll_out]
  · simp [s.poll_out]
  · rw [← s.poll_out]
    rcases exec_ending he with _ | _ | ⟨_, _, _, heff⟩ | ⟨_, _, hout⟩
    · simp
    · simp
    · obtain ⟨es, one, _, out⟩ := heff.emits
      rcases heff.advance_cases (encode i).length with ⟨_, e⟩ | ⟨_, e⟩ <;> rw [e] <;> simp [out] <;> omega
    · rw [hout]; omega

end PrependOut

/-- Settles O23: what a step emits is what it emits from an empty output stream; an earlier output only stands before it. -/
theorem outputIsAppendedAndNeverRead : Obligations.OutputIsAppendedAndNeverRead := by
  intro s t h
  obtain ⟨u, hu⟩ := everyStepAnswersNext { s with out := [] }
  have after_output : ∀ o, step { s with out := o } = .next (u.prependOut o) := fun o => by
    have same := step_prependOut (o := o) hu
    rwa [State.prependOut, List.append_nil] at same
  obtain rfl : u.prependOut s.out = t := Host.Outcome.next.inj ((after_output s.out).symm.trans h)
  exact ⟨u.out, by simpa using step_out_length hu, rfl, after_output⟩

end Sys2Proof.Machine
end

section
/-! PROOFS. What each instruction does and leaves alone (spec R90 to R143): its effect under the automatic advance, or its
own pc. Settles O24 to O29, O32 to O45 and O47. -/

namespace Sys2Proof.Machine

/-! ### Frames of the operations -/

section Frames

variable {s t u : State} {rs rs' : List RegIdx} {cells cells' : List Byte}

theorem Frame.refl (s : State) : Frame [] [] s s := ⟨fun _ _ => rfl, fun _ _ => rfl, rfl, rfl, rfl, rfl, rfl⟩

theorem frame_setReg (r : RegIdx) (v : Byte) : Frame [r] [] s (s.setReg r v) where
  __ := Frame.refl s
  regs q hq := (s.reg_setReg r q v).trans (if_neg (List.ne_of_not_mem_cons hq))

theorem frame_writeByte (a v : Byte) : Frame [] [a] s (s.writeByte a v) where
  __ := Frame.refl s
  mem b hb := (s.readByte_writeByte a b v).trans (if_neg (List.ne_of_not_mem_cons hb))

theorem frame_emit (ev : Event) : Frame [] [] s (s.emit ev) := { Frame.refl s with }

theorem frame_setFl (v : Byte) : Frame [] [] s (s.setFl v) := { Frame.refl s with }

theorem Frame.trans (h : Frame rs cells s t) (h' : Frame rs' cells' t u) : Frame (rs ++ rs') (cells ++ cells') s u where
  regs r hr := by
    rw [List.mem_append, not_or] at hr
    rw [h'.regs r hr.2, h.regs r hr.1]
  mem a ha := by
    rw [List.mem_append, not_or] at ha
    rw [h'.mem a ha.2, h.mem a ha.1]
  ie := h'.ie.trans h.ie
  ltf := h'.ltf.trans h.ltf
  run := h'.run.trans h.run
  inputs := h'.inputs.trans h.inputs
  cycle := h'.cycle.trans h.cycle

theorem frame_popReg (r : RegIdx) : Frame [r, 7] [] s (s.popReg r) where
  __ := Frame.refl s
  regs q hq := by simp at hq; simp [hq, spReg_eq]

theorem Frame.setPc (h : Frame rs cells s t) (p : Byte) : Frame rs cells s (t.setPc p) := { h with }

theorem Frame.advance (h : Frame rs cells s t) {n : Nat} (hpc : t.pc.toNat + n ≤ 255) :
    Frame rs cells s (t.advance n) := by
  rw [State.advance_of_le hpc]
  exact h.setPc _

end Frames

/-! ### Instructions that write one register -/

section Instructions

variable {i : Instr} {s : State} {n : Nat}

/-- Every clause about an instruction that writes `v` to a register and advances; `P` is what is claimed of `v`. -/
theorem exec_writes_reg {r : RegIdx} {v : Byte} {P : Byte → Prop} (h : exec i s = .next ((s.setReg r v).advance n))
    (hpc : s.pc.toNat + n ≤ 255) (hv : P v) :
    ∃ t, exec i s = .next t ∧ P (t.reg r) ∧ t.pc.toNat = s.pc.toNat + n ∧ Frame [r] [] s t ∧ t.fl = s.fl ∧
      t.out = s.out := by
  refine ⟨_, h, ?_, State.advance_pc_of_le hpc, (frame_setReg r v).advance hpc, State.advance_fl ..,
    State.advance_out_of_le hpc⟩
  rwa [State.advance_reg, State.reg_setReg, if_pos rfl]

end Instructions

/-- Settles O24: the immediate is the byte written. -/
theorem ldiLoadsImmediate : Obligations.LdiLoadsImmediate := fun r imm _ hpc =>
  exec_writes_reg (P := (· = imm)) (ExecTo.ldi r imm).exec_eq hpc rfl

/-- Settles O38: the address is read before the register is written. -/
theorem ldLoadsByte : Obligations.LdLoadsByte := fun r q s hpc =>
  exec_writes_reg (P := (· = s.readByte (s.reg q))) (ExecTo.ld r q).exec_eq hpc rfl

/-- Settles O41: the sum and the product of bytes are those of numbers modulo 256. -/
theorem addAndMulModulo256 : Obligations.AddAndMulModulo256 := fun r q s hpc =>
  ⟨exec_writes_reg (P := fun v => v.toNat = ((s.reg r).toNat + (s.reg q).toNat) % 256) (ExecTo.add r q).exec_eq hpc
      (BitVec.toNat_add ..),
    exec_writes_reg (P := fun v => v.toNat = ((s.reg r).toNat * (s.reg q).toNat) % 256) (ExecTo.mul r q).exec_eq hpc
      (BitVec.toNat_mul ..)⟩

/-- Settles O42: the bytewise operations are defined bit by bit. -/
theorem andOrXorBitwise : Obligations.AndOrXorBitwise := fun r q s hpc =>
  ⟨exec_writes_reg (P := fun v => ∀ k : Fin 8, v.getLsbD k = ((s.reg r).getLsbD k && (s.reg q).getLsbD k))
      (ExecTo.and r q).exec_eq hpc fun _ => BitVec.getLsbD_and,
    exec_writes_reg (P := fun v => ∀ k : Fin 8, v.getLsbD k = ((s.reg r).getLsbD k || (s.reg q).getLsbD k))
      (ExecTo.or r q).exec_eq hpc fun _ => BitVec.getLsbD_or,
    exec_writes_reg (P := fun v => ∀ k : Fin 8, v.getLsbD k = ((s.reg r).getLsbD k != (s.reg q).getLsbD k))
      (ExecTo.xor r q).exec_eq hpc fun _ => BitVec.getLsbD_xor⟩

theorem toNat_aluNot (a : Byte) : (aluNot a).toNat = 255 - a.toNat := BitVec.toNat_not
theorem toNat_aluInc (a : Byte) : (aluInc a).toNat = (a.toNat + 1) % 256 := BitVec.toNat_add ..
theorem toNat_aluDec (a : Byte) : (aluDec a).toNat = (a.toNat + 255) % 256 := by rw [aluDec]; bv_omega

/-- Settles O43: each result as a number. -/
theorem notIncDecResults : Obligations.NotIncDecResults := fun r s hpc =>
  ⟨exec_writes_reg (P := fun v => v.toNat = 255 - (s.reg r).toNat) (ExecTo.not r).exec_eq hpc (toNat_aluNot _),
    exec_writes_reg (P := fun v => v.toNat = ((s.reg r).toNat + 1) % 256) (ExecTo.inc r).exec_eq hpc (toNat_aluInc _),
    exec_writes_reg (P := fun v => v.toNat = ((s.reg r).toNat + 255) % 256) (ExecTo.dec r).exec_eq hpc (toNat_aluDec _)⟩

theorem toNat_aluShl (a b : Byte) : (aluShl a b).toNat = a.toNat * 2 ^ b.toNat % 256 := by
  rw [aluShl, BitVec.toNat_shiftLeft, Nat.shiftLeft_eq]

theorem toNat_aluShr (a b : Byte) : (aluShr a b).toNat = a.toNat / 2 ^ b.toNat := by
  rw [aluShr, BitVec.toNat_ushiftRight, Nat.shiftRight_eq_div_pow]

/-- Settles O44: a shift by any amount multiplies or divides by that power of two. -/
theorem shiftsByWholeAmount : Obligations.ShiftsByWholeAmount := fun r q s hpc =>
  ⟨exec_writes_reg (P := fun v => v.toNat = ((s.reg r).toNat * 2 ^ (s.reg q).toNat) % 256) (ExecTo.shl r q).exec_eq hpc
      (toNat_aluShl ..),
    exec_writes_reg (P := fun v => v.toNat = (s.reg r).toNat / 2 ^ (s.reg q).toNat) (ExecTo.shr r q).exec_eq hpc
      (toNat_aluShr ..)⟩

/-- Settles O45: with a divisor other than 0 MOD is a register write like the others. -/
theorem modGivesRemainder : Obligations.ModGivesRemainder := fun r q s hpc hq =>
  exec_writes_reg (P := fun v => v.toNat = (s.reg r).toNat % (s.reg q).toNat) (ExecTo.mod r q hq).exec_eq hpc
    BitVec.toNat_umod

/-! ### The other instructions that advance -/

section Emit

variable {i : Instr} {s : State} {ev : Event}

theorem exec_emits (h : exec i s = .next ((s.emit ev).advance 2)) (hpc : s.pc.toNat + 2 ≤ 255) :
    ∃ t, exec i s = .next t ∧ t.out = s.out ++ [ev] ∧ t.pc.toNat = s.pc.toNat + 2 ∧ Frame [] [] s t ∧ t.fl = s.fl :=
  ⟨_, h, State.advance_out_of_le hpc, State.advance_pc_of_le hpc, (frame_emit ev).advance hpc, State.advance_fl ..⟩

end Emit

/-- Settles O25: each is the emission of its own kind of event. -/
theorem prnAndPraEmitRegister : Obligations.PrnAndPraEmitRegister := fun r _ hpc =>
  ⟨exec_emits (ExecTo.prn r).exec_eq hpc, exec_emits (ExecTo.pra r).exec_eq hpc⟩

/-- Settles O27: the halt is a stop of status 0 and no other change. -/
theorem hltStopsWithStatusZero : Obligations.HltStopsWithStatusZero := fun s =>
  ⟨s.halt, rfl, s.halt_run, rfl, rfl, rfl⟩

/-- Settles O39: the store's own cell, and its frame. -/
theorem stStoresByte : Obligations.StStoresByte := by
  intro r q s hpc
  refine ⟨_, (ExecTo.st r q).exec_eq, ?_, State.advance_pc_of_le hpc, (frame_writeByte _ _).advance hpc, State.advance_fl ..,
    State.advance_out_of_le hpc⟩
  rw [State.advance_readByte, State.readByte_writeByte, if_pos rfl]

/-- Settles O28: PUSH is the stack primitive with the register's value. -/
theorem pushStoresRegister : Obligations.PushStoresRegister := by
  intro r s hpc
  have frame := s.push_frame (s.reg r)
  rw [s.push_sp] at frame
  refine ⟨_, (ExecTo.push r).exec_eq, ?_, ?_, State.advance_pc_of_le hpc, frame.advance hpc, State.advance_fl ..,
    State.advance_out_of_le hpc⟩
  · rw [State.advance_reg, s.push_sp_toNat]
  · rw [State.advance_reg, State.advance_readByte]
    exact s.top_push _

/-- Settles O29: POP writes the top after SP has moved, so SP keeps its move unless it is the register. -/
theorem popLoadsRegister : Obligations.PopLoadsRegister := by
  intro r s hpc
  refine ⟨_, (ExecTo.pop r).exec_eq, ?_, fun h7 => ?_, State.advance_pc_of_le hpc, (frame_popReg r).advance hpc,
    State.advance_fl .., State.advance_out_of_le hpc⟩
  · rw [State.advance_reg, State.popReg_reg, if_pos rfl]; rfl
  · rw [State.advance_reg, State.popReg_reg, if_neg h7.symm, if_pos spReg_eq.symm, spReg_eq]
    bv_omega

section Compare

variable (fl a b : Byte)

theorem cmpFlags_getLsbD (k : Fin 8) : (cmpFlags fl a b).getLsbD k =
    if k = 0 then decide (a = b) else if k = 1 then decide (a.toNat > b.toNat) else
      if k = 2 then decide (a.toNat < b.toNat) else fl.getLsbD k := by
  rw [cmpFlags, getLsbD_putBit, getLsbD_putBit, getLsbD_putBit]

theorem flagL_cmpFlags : flagL (cmpFlags fl a b) = true ↔ a.toNat < b.toNat :=
  (congrArg (· = true) (cmpFlags_getLsbD fl a b 2)).to_iff.trans decide_eq_true_iff

theorem flagG_cmpFlags : flagG (cmpFlags fl a b) = true ↔ a.toNat > b.toNat :=
  (congrArg (· = true) (cmpFlags_getLsbD fl a b 1)).to_iff.trans decide_eq_true_iff

theorem flagE_cmpFlags : flagE (cmpFlags fl a b) = true ↔ a = b :=
  (congrArg (· = true) (cmpFlags_getLsbD fl a b 0)).to_iff.trans decide_eq_true_iff

theorem cmpFlags_upper {k : Fin 8} (hk : 3 ≤ k.val) : (cmpFlags fl a b).getLsbD k = fl.getLsbD k := by
  rw [cmpFlags_getLsbD, if_neg, if_neg, if_neg] <;> rintro rfl <;> simp at hk

end Compare

/-- Settles O47: CMP writes the three flags, each from its own comparison. -/
theorem cmpSetsFlags : Obligations.CmpSetsFlags := by
  intro r q s hpc
  refine ⟨_, (ExecTo.cmp r q).exec_eq, ?_⟩
  rw [State.advance_fl, State.setFl_fl]
  exact ⟨flagL_cmpFlags .., flagG_cmpFlags .., flagE_cmpFlags .., fun _ => cmpFlags_upper s.fl _ _,
    State.advance_pc_of_le hpc, (frame_setFl _).advance hpc, State.advance_out_of_le hpc⟩

/-! ### Instructions that set pc -/

/-- Settles O33: CALL pushes the return address and reads its register after the push. -/
theorem callPushesReturnAddress : Obligations.CallPushesReturnAddress := by
  intro r s hpc
  have frame := s.push_frame (s.pc + 2)
  rw [s.push_sp] at frame
  refine ⟨_, (ExecTo.call r hpc).exec_eq, s.push_sp_toNat (s.pc + 2), ?_, ?_, frame.setPc _, rfl, rfl⟩
  · show (s.push (s.pc + 2)).top.toNat = _
    rw [s.top_push]
    exact toNat_add_ofNat hpc
  · show (s.push (s.pc + 2)).reg r = if r = 7 then (s.push (s.pc + 2)).reg 7 else s.reg r
    by_cases h7 : r = 7
    · rw [if_pos h7, h7]
    · rw [if_neg h7, State.reg_push, if_neg h7]

/-- Settles O34: RET is the stack primitive with the byte put into pc. -/
theorem retPopsPc : Obligations.RetPopsPc := fun s =>
  ⟨s.popPc, rfl, rfl, s.dropTop_sp_toNat, s.dropTop_frame.setPc _, rfl, rfl⟩

/-- Settles O35: RET pops what CALL pushed. -/
theorem callThenRetReturns : Obligations.CallThenRetReturns := by
  intro r s t h hpc hcall hsp hcell
  obtain ⟨u, hu, pushed_sp, pushed_cell, _⟩ := callPushesReturnAddress r s hpc
  obtain rfl := Host.Outcome.next.inj (hcall.symm.trans hu)
  obtain ⟨v, hv, pc, sp, _⟩ := retPopsPc h
  refine ⟨v, hv, ?_, BitVec.eq_of_toNat_eq ?_⟩
  · rw [pc, hcell, pushed_cell]
  · rw [sp, hsp, pushed_sp]
    omega

/-- Settles O36: JMP writes pc alone. -/
theorem jmpGoesToRegister : Obligations.JmpGoesToRegister := fun r s =>
  ⟨_, (ExecTo.jmp r).exec_eq, rfl, (Frame.refl s).setPc _, rfl, rfl⟩

section ConditionalJump

variable {i : Instr} {s : State} {taken : Bool} {r : RegIdx}

theorem exec_jump_taken (h : exec i s = .next (s.jumpIf taken r)) (ht : taken = true) :
    ∃ t, exec i s = .next t ∧ t.pc = s.reg r ∧ Frame [] [] s t ∧ t.fl = s.fl ∧ t.out = s.out :=
  ⟨s.setPc (s.reg r), by rw [h, ht, s.jumpIf_true], rfl, (Frame.refl s).setPc _, rfl, rfl⟩

theorem exec_jump_not_taken (h : exec i s = .next (s.jumpIf taken r)) (ht : taken = false) (hpc : s.pc.toNat + 2 ≤ 255) :
    ∃ t, exec i s = .next t ∧ t.pc.toNat = s.pc.toNat + 2 ∧ Frame [] [] s t ∧ t.fl = s.fl ∧ t.out = s.out :=
  ⟨_, by rw [h, ht, s.jumpIf_false], State.advance_pc_of_le hpc, (Frame.refl s).advance hpc, State.advance_fl ..,
    State.advance_out_of_le hpc⟩

end ConditionalJump

/-- Settles O37: JEQ is taken on E, JNE on its negation. -/
theorem jeqAndJneFollowEqualFlag : Obligations.JeqAndJneFollowEqualFlag := by
  intro r s
  have jeq := (ExecTo.jeq (s := s) r).exec_eq
  have jne := (ExecTo.jne (s := s) r).exec_eq
  rw [flagE_eq] at jeq jne
  exact ⟨exec_jump_taken jeq, exec_jump_not_taken jeq, fun hE => exec_jump_taken jne (by rw [hE]; rfl),
    fun hE => exec_jump_not_taken jne (by rw [hE]; rfl)⟩

/-! ### Instructions in sequence -/

/-- A frame is narrower where the registers and cells it lists hold what they held. -/
theorem Frame.narrow {s t : State} {rs rs' : List RegIdx} {cells cells' : List Byte} (h : Frame rs cells s t)
    (hregs : ∀ r ∈ rs, r ∉ rs' → t.reg r = s.reg r) (hmem : ∀ a ∈ cells, a ∉ cells' → t.readByte a = s.readByte a) :
    Frame rs' cells' s t where
  __ := h
  regs r hr := by
    by_cases hin : r ∈ rs
    · exact hregs r hin hr
    · exact h.regs r hin
  mem a ha := by
    by_cases hin : a ∈ cells
    · exact hmem a hin ha
    · exact h.mem a hin

/-- Settles O32: each POP meets the SP and the cell of its own PUSH. -/
theorem nestedPushPopBalances : Obligations.NestedPushPopBalances := by
  intro r q s hr hq hpc
  obtain ⟨t1, h1, sp1, cell1, pc1, frame1, fl1, out1⟩ := pushStoresRegister r s (by omega)
  obtain ⟨t2, h2, sp2, cell2, pc2, frame2, fl2, out2⟩ := pushStoresRegister q t1 (by omega)
  obtain ⟨t3, h3, reg3, sp3, pc3, frame3, fl3, out3⟩ := popLoadsRegister q t2 (by omega)
  obtain ⟨t4, h4, reg4, sp4, pc4, frame4, fl4, out4⟩ := popLoadsRegister r t3 (by omega)
  have sp1 : t1.reg 7 = s.reg 7 - 1 := by bv_omega
  have sp2 : t2.reg 7 = s.reg 7 - 2 := by bv_omega
  have sp3 : t3.reg 7 = s.reg 7 - 1 := by have := sp3 hq; bv_omega
  have sp4 : t4.reg 7 = s.reg 7 := by have := sp4 hr; bv_omega
  have upper : t4.readByte (s.reg 7 - 1) = s.reg r := by
    rw [frame4.mem _ List.not_mem_nil, frame3.mem _ List.not_mem_nil, frame2.mem, ← cell1, sp1]
    rw [List.mem_singleton, sp1]
    bv_omega
  have lower : t4.readByte (s.reg 7 - 2) = s.reg q := by
    rw [frame4.mem _ List.not_mem_nil, frame3.mem _ List.not_mem_nil, ← sp2, cell2]
    exact frame1.regs q (mt List.mem_singleton.1 hq)
  have restored_r : t4.reg r = s.reg r := by rw [reg4, sp3, ← frame4.mem _ List.not_mem_nil, upper]
  have restored_q : t4.reg q = s.reg q := by
    by_cases hqr : q = r
    · rw [hqr, restored_r]
    · rw [frame4.regs q (by simp [hqr, hq]), reg3, sp2, ← frame3.mem _ List.not_mem_nil, ← frame4.mem _ List.not_mem_nil, lower]
  have frame : Frame [] [s.reg 7 - 1, s.reg 7 - 2] s t4 := by
    refine (frame1.trans (frame2.trans (frame3.trans frame4))).narrow (fun x hx _ => ?_) fun a ha hout => absurd ?_ hout
    · have which : x = 7 ∨ x = q ∨ x = r := by simp at hx; tauto
      rcases which with rfl | rfl | rfl
      · exact sp4
      · exact restored_q
      · exact restored_r
    · have below : t1.reg 7 - 1 = s.reg 7 - 2 := by bv_omega
      rwa [below] at ha
  exact ⟨t1, t2, t3, t4, h1, h2, h3, h4, by omega, frame, upper, lower, by rw [fl4, fl3, fl2, fl1],
    by rw [out4, out3, out2, out1]⟩

/-! ### A store and the next fetch -/

theorem State.head_fetchWindow (s : State) : s.fetchWindow.head? = some (s.readByte s.pc) := by
  obtain ⟨rest, hw⟩ := s.fetchWindow_cons
  rw [hw, List.head?_cons]

theorem State.latchRequests_pc (s : State) : s.latchRequests.pc = s.pc := by
  rw [State.latchRequests, State.keyboardPoll_pc, State.timerPoll_pc, State.consumeInput_pc]

/-- Settles O40: the next poll leaves pc at the stored cell, and writes memory only where it deposits a key. -/
theorem storeIsSeenByNextFetch : Obligations.StoreIsSeenByNextFetch := by
  intro r q s t hpc hst hnext hnone
  obtain ⟨u, hu, stored, upc, _⟩ := stStoresByte r q s hpc
  obtain rfl := Host.Outcome.next.inj (hst.symm.trans hu)
  have at_store : t.pc = s.reg r := BitVec.eq_of_toNat_eq (upc.trans hnext.symm)
  rw [State.poll_of_none hnone, State.head_fetchWindow, State.latchRequests_pc, at_store, State.latchRequests_readByte, stored,
    keyBuf_eq]
  refine ⟨fun h => ?_, fun k hk hbuf => ?_⟩
  · rcases h with hkey | hbuf
    · rw [hkey, Option.getD_none, ite_self]
    · rw [if_neg hbuf]
  · rw [if_pos hbuf, hk, Option.getD_some]

end Sys2Proof.Machine
end

section
/-! PROOFS. What the outside sees of the output, the polls of every cycle, the return from an interrupt, and the machine at
reset (spec R22, R91, R92, R160, R177 to R187, R200 to R202). Settles O26, O48, O50 and O53 to O58. -/

namespace Sys2Proof.Machine

/-! ### Digits -/

/-- Settles O26: a byte has one, two or three digits, by its size. -/
theorem outputEventsRender : Obligations.OutputEventsRender := by
  intro v
  refine ⟨⟨decDigits v, rfl, ?_⟩, rfl⟩
  have bound := v.isLt
  rw [decDigits]
  split
  · exact ⟨by simpa, by simp, by simp, by simp⟩
  · split
    · refine ⟨?_, ?_, by simp, ?_⟩ <;> simp <;> omega
    · refine ⟨?_, ?_, by simp, ?_⟩ <;> simp <;> omega

/-! ### The polls -/

section Polls

variable (s : State)

theorem timerDue_iff {now ltf : Time} : timerDue now ltf = true ↔ now - ltf > Config.timerPeriod := decide_eq_true_iff

theorem State.timerPoll_of_due {now : Time} (h : now - s.ltf > Config.timerPeriod) :
    s.timerPoll now = (s.putIs Config.timerLine true).setLtf now := by
  rw [State.timerPoll, if_pos (timerDue_iff.2 h)]

theorem State.timerPoll_of_not_due {now : Time} (h : ¬ now - s.ltf > Config.timerPeriod) : s.timerPoll now = s := by
  rw [State.timerPoll, if_neg (mt timerDue_iff.1 h)]

/-- IS bit 0 after both polls: only the timer sets it. -/
theorem State.latchRequests_timerLine : (s.latchRequests.reg 6).getLsbD 0 =
    ((s.reg 6).getLsbD 0 || decide (s.nextInput.now - s.ltf > Config.timerPeriod)) := by
  simpa [Bool.or_comm, timerDue] using s.latchRequests_is 0

theorem State.latchRequests_otherLine {k : Fin 8} (hk : 2 ≤ k.val) :
    (s.latchRequests.reg 6).getLsbD k = (s.reg 6).getLsbD k := by
  have h0 : k ≠ 0 := by rintro rfl; simp at hk
  have h1 : k ≠ 1 := by rintro rfl; simp at hk
  rw [s.latchRequests_is, decide_eq_false h0, decide_eq_false h1]
  rfl

end Polls

/-- Settles O48: when it is due, the poll is one write of IS and one of LTF. -/
theorem timerPollSetsLineZero : Obligations.TimerPollSetsLineZero := by
  refine fun s now => ⟨fun due => ?_, s.timerPoll_of_not_due⟩
  rw [s.timerPoll_of_due due]
  refine ⟨fun k => ?_, fun r hr => ?_, rfl⟩
  · rw [State.setLtf_reg, State.reg_putIs, if_pos isReg_eq.symm, getLsbD_putBit, isReg_eq]
    by_cases h : k = 0 <;> simp [h]
  · rw [State.setLtf_reg, State.reg_putIs, if_neg hr]

/-- Settles O50: the two polls field by field. -/
theorem onlyTwoLinesHaveSources : Obligations.OnlyTwoLinesHaveSources := by
  intro s
  refine ⟨s.latchRequests_timerLine, ?_, ?_, s.latchRequests_keyBuf, fun k => s.latchRequests_otherLine, s.latchRequests_reg,
    fun a ha => ?_, s.latchRequests_pc, ?_, s.latchRequests_ie, ?_, ?_, ?_, ?_⟩
  · rw [s.latchRequests_ltf]
    simp only [timerDue_iff]
  · rw [s.latchRequests_keyLine, Bool.or_comm]
  · rw [s.latchRequests_readByte, keyBuf_eq, if_neg ha]
  all_goals simp [State.latchRequests]

/-! ### Return from an interrupt -/

section Return

variable (s : State)

theorem State.returnFromInterrupt_regs : savedRegs.reverse.map s.returnFromInterrupt.reg =
    (List.range 7).map fun k => s.readByte (s.reg 7 + BitVec.ofNat 8 k) := by
  refine List.ext_getElem (by simp [savedRegs]) fun k hk _ => ?_
  rw [List.getElem_map, List.getElem_map, List.getElem_range]
  exact s.returnFromInterrupt_reg k (List.length_map s.returnFromInterrupt.reg ▸ hk)

end Return

/-- Settles O53: registers, FL and pc take the nine bytes from SP up in turn. -/
theorem iretRestoresFromStack : Obligations.IretRestoresFromStack := by
  intro s
  refine ⟨s.returnFromInterrupt, rfl, ?_, ?_, s.returnFromInterrupt_ie, s.returnFromInterrupt_readByte,
    s.returnFromInterrupt_ltf, s.returnFromInterrupt_run, s.returnFromInterrupt_out, s.returnFromInterrupt_inputs,
    s.returnFromInterrupt_cycle⟩
  · have nine := congrArg (· ++ [s.returnFromInterrupt.fl, s.returnFromInterrupt.pc]) s.returnFromInterrupt_regs
    refine nine.trans ?_
    rw [s.returnFromInterrupt_fl, s.returnFromInterrupt_pc]
    simp [List.range_succ]
  · rw [s.returnFromInterrupt_sp]
    bv_omega

/-- From the lower end of the frame upwards its cells come in reverse order of the pushes. -/
theorem frame_upwards (sp : Byte) : [sp - 9, sp - 9 + 1, sp - 9 + 2, sp - 9 + 3, sp - 9 + 4, sp - 9 + 5, sp - 9 + 6,
    sp - 9 + 7, sp - 9 + 8] = (frameCells sp).reverse := by
  simp only [frameCells, List.reverse_cons, List.reverse_nil, List.nil_append, List.cons_append, List.cons.injEq, and_true,
    true_and]
  bv_omega

/-- Settles O54: from the SP that entry left, the nine bytes upwards are the frame read backwards. -/
theorem handlerEndingInIretRestoresContext : Obligations.HandlerEndingInIretRestoresContext := by
  intro s h i hsp hcells
  rw [State.enterInterrupt_reg, if_pos rfl] at hsp
  obtain ⟨t, ht, popped, sp, ie, mem, _⟩ := iretRestoresFromStack h
  have saved : (frameCells (s.reg 7)).map h.readByte = _ := (List.map_congr_left hcells).trans (s.enterInterrupt_frameCells i)
  rw [hsp, frame_upwards, List.map_reverse, saved] at popped
  obtain ⟨is, r5, r4, r3, r2, r1, r0, fl, pc⟩ : t.reg 6 = (s.enterInterrupt i).reg 6 ∧ t.reg 5 = s.reg 5 ∧
      t.reg 4 = s.reg 4 ∧ t.reg 3 = s.reg 3 ∧ t.reg 2 = s.reg 2 ∧ t.reg 1 = s.reg 1 ∧ t.reg 0 = s.reg 0 ∧ t.fl = s.fl ∧
      t.pc = s.pc := by simpa using popped
  refine ⟨t, ht, pc, fl, ie, fun r h6 => ?_, fun k => ?_, mem⟩
  · have r7 : t.reg 7 = s.reg 7 := by bv_omega
    match r with
    | 0 => exact r0
    | 1 => exact r1
    | 2 => exact r2
    | 3 => exact r3
    | 4 => exact r4
    | 5 => exact r5
    | 6 => exact absurd rfl h6
    | 7 => exact r7
  · rw [is, s.enterInterrupt_is]

/-! ### Timer and key in one cycle -/

/-- The last byte of the frame is the saved IS. -/
theorem State.enterInterrupt_savedIs (s : State) (i : Line) :
    (s.enterInterrupt i).readByte (s.reg 7 - 9) = (s.enterInterrupt i).reg 6 := by
  simpa [frameCells] using congrArg List.getLast? (s.enterInterrupt_frameCells i)

/-- Settles O55: line 0 is the lowest of all, and its entry clears its own bit alone. -/
theorem simultaneousRequestsServeTimerFirst : Obligations.SimultaneousRequestsServeTimerFirst := by
  intro s k hie him due hkey
  have timer : (s.latchRequests.reg 6).getLsbD 0 = true := by simp [s.latchRequests_timerLine, due]
  have key : (s.latchRequests.reg 6).getLsbD 1 = true := by simp [s.latchRequests_keyLine, hkey]
  have accepted : s.latchRequests.acceptedLine = some 0 :=
    State.acceptedLine_eq_some.2 ⟨s.latchRequests_ie.trans hie, by rwa [s.latchRequests_reg 5 (by decide)], timer, nofun⟩
  have entered : s.poll = s.latchRequests.enterInterrupt 0 := State.interruptAccept_of_some accepted
  have pending : ((s.latchRequests.enterInterrupt 0).reg 6).getLsbD 1 = true :=
    (s.latchRequests.enterInterrupt_is 0 1).trans ((Bool.and_true _).trans key)
  have cleared : ((s.latchRequests.enterInterrupt 0).reg 6).getLsbD 0 = false :=
    (s.latchRequests.enterInterrupt_is 0 0).trans (Bool.and_false _)
  rw [entered]
  refine ⟨rfl, timer, cleared, pending, ?_, ?_⟩
  · rw [← s.latchRequests_reg 7 (by decide), State.enterInterrupt_savedIs, pending]
  · rw [s.latchRequests_keyBuf, hkey, Option.getD_some]

/-! ### Reset and boot -/

/-- Settles O56: every clause is a field of the reset state. -/
theorem resetStateIsAsListed : Obligations.ResetStateIsAsListed :=
  ⟨rfl, rfl, rfl, rfl, rfl, rfl, rfl, by decide, fun _ => rfl⟩

theorem boot_of_le {image : List Byte} (h : image.length ≤ 256) : boot image = .next (State.reset.writeBytes 0 image) := by
  rw [boot, if_pos h]

theorem boot_of_gt {image : List Byte} (h : image.length > 256) : boot image = .refused (.imageTooLong image.length) := by
  rw [boot, if_neg (not_le.2 h)]

/-- Settles O57: the image is stored byte by byte from address 0, and cells past it keep the fill. -/
theorem bootPlacesImage : Obligations.BootPlacesImage := by
  refine ⟨fun image hlen => ⟨_, boot_of_le hlen, State.writeBytes_frame .., fun k hk => ?_, fun k hlow hk => ?_,
    State.wf_writeBytes Memory.wf_nil ..⟩, fun image => boot_of_gt⟩
  · have stored := State.reset.readByte_writeBytes_at 0 image hlen k hk
    rw [zero_add] at stored
    rw [stored, List.getElem?_eq_getElem hk]
  · refine State.readByte_writeBytes_out _ _ _ _ fun j hj e => ?_
    rw [zero_add] at e
    have same := congrArg BitVec.toNat e
    simp only [BitVec.toNat_ofNat] at same
    omega

/-- With every line masked, the poll is the two request latches. -/
theorem State.poll_of_im_zero {s : State} (h : s.reg 5 = 0) : s.poll = s.latchRequests :=
  State.poll_of_none (State.acceptedLine_of_none_pending (by
    rw [s.latchRequests_reg 5 (by decide), h]
    exact BitVec.zero_and))

/-- Settles O58: with IM zero no request is both pending and enabled, whatever the polls latch. -/
theorem firstFetchIsAtAddressZero : Obligations.FirstFetchIsAtAddressZero := by
  intro image t es n hboot
  rcases Nat.lt_or_ge 256 image.length with hlen | hlen
  · rw [boot_of_gt hlen] at hboot; cases hboot
  · rw [boot_of_le hlen, State.writeBytes_frame] at hboot
    cases hboot
    rw [State.poll_of_im_zero]
    · exact ⟨State.latchRequests_pc _, State.latchRequests_ie _⟩
    · rfl

end Sys2Proof.Machine
end
